-- ==== Sys2Proof/Word.lean ====
section
/-! DEFINITION. The word types of the Toy core: spec/00_scope.md R3. -/

namespace Sys2Proof

/-- A 16-bit value: the accumulator, a memory cell, an instruction word (R3). -/
abbrev Word := BitVec 16

/-- A 12-bit value: a cell address, the program counter (R3). -/
abbrev Addr := BitVec 12

/-- The 4-bit opcode field (R3). -/
abbrev Opcode := BitVec 4

/-- A line or a text of the assembler, an export or a listing, one character after another. -/
abbrev Text := List Char

end Sys2Proof
end

