-- ==== Sys2Proof/Syntax.lean ====
section
/-! DEFINITION. The 13 instruction kinds and the instructions: spec/30_encoding.md R51 to R54, R60. -/

namespace Sys2Proof

/-- One of the 13 instruction kinds, in the order of spec/30_encoding.md R53. -/
inductive Kind where
  | sto | lda | brz | add | sub | or | and | xor | not | inc | dec | zro | nop
deriving DecidableEq, Repr

/-- The eight kinds whose encoding carries a 12-bit memory operand (R54). -/
def Kind.isAddressKind : Kind → Bool
  | .sto | .lda | .brz | .add | .sub | .or | .and | .xor => true
  | .not | .inc | .dec | .zro | .nop => false

/-- An instruction: its kind, and for the eight address-kinds the 12-bit address. Two instructions are equal exactly
when the spec says instruction values are (R60), so NOP is one constructor for the four opcodes 12 to 15 (R151). -/
inductive Instr where
  | sto (a : Addr)
  | lda (a : Addr)
  | brz (a : Addr)
  | add (a : Addr)
  | sub (a : Addr)
  | or (a : Addr)
  | and (a : Addr)
  | xor (a : Addr)
  | not
  | inc
  | dec
  | zro
  | nop
deriving DecidableEq, Repr

/-- The kind of an instruction. -/
def Instr.kind : Instr → Kind
  | .sto _ => .sto
  | .lda _ => .lda
  | .brz _ => .brz
  | .add _ => .add
  | .sub _ => .sub
  | .or _ => .or
  | .and _ => .and
  | .xor _ => .xor
  | .not => .not
  | .inc => .inc
  | .dec => .dec
  | .zro => .zro
  | .nop => .nop

/-- The address of the pair (kind, address) the spec writes for an instruction: 0 for the no-address kinds
(spec/10_state.md R13). -/
def Instr.address : Instr → Addr
  | .sto a | .lda a | .brz a | .add a | .sub a | .or a | .and a | .xor a => a
  | .not | .inc | .dec | .zro | .nop => 0

/-- The instruction of a kind and an address. A no-address kind drops the address (R55). -/
def Instr.ofKind (k : Kind) (a : Addr) : Instr :=
  match k with
  | .sto => .sto a
  | .lda => .lda a
  | .brz => .brz a
  | .add => .add a
  | .sub => .sub a
  | .or => .or a
  | .and => .and a
  | .xor => .xor a
  | .not => .not
  | .inc => .inc
  | .dec => .dec
  | .zro => .zro
  | .nop => .nop

/-- One write of a memory image: a cell address and a value, integers as the host gives them
(spec/70_reset_and_hazards.md R191; the value is reduced modulo 65536 when it is written). -/
structure ImageWrite where
  address : Int
  value : Int
deriving DecidableEq, Repr

/-- A memory image: the writes LOAD makes (spec/30_encoding.md R74). -/
abbrev Image := List ImageWrite

end Sys2Proof
end

