-- ==== Sys2Proof/Config.lean ====
section
/-! DEFINITION. What an implementation fixes: the memory size MEM_SIZE (spec/00_scope.md R4) and the contents MPT of the
micro-program table (spec/46_microprogram.md R158). -/

namespace Sys2Proof

/-- The build parameters of one core. `lastCell` is MEM_SIZE - 1, the highest cell address: its 4096 values are exactly the
sizes 1 to 4096 that R4 admits, so no other size can be written down. -/
structure Config where
  lastCell : Addr
deriving DecidableEq, Repr

/-- MEM_SIZE: the memory holds the cells 0 to MEM_SIZE - 1 (R4). -/
def Config.memSize (c : Config) : Nat := c.lastCell.toNat + 1

/-- The spec's default, MEM_SIZE = 4096 (R4). -/
def Config.standard : Config := ⟨4095#12⟩

/-- The configuration of a memory size. A size outside 1 to 4096 is refused (R4, U16). -/
def Config.ofMemSize? (n : Nat) : Option Config :=
  if 1 ≤ n ∧ n ≤ 4096 then some ⟨BitVec.ofNat 12 (n - 1)⟩ else none

/-- MPT, the control word of each kind: an open parameter of the spec with no value assumed (R158, decision D20), so a
constant without a body. No step of the core reads it (R157). Safe. -/
opaque Config.mpt : Kind → BitVec 12

end Sys2Proof
end

