-- ==== Sys2Proof/WellFormed.lean ====
section
/-! DEFINITION. When data given to the model is well formed: an instruction value (spec/30_encoding.md R57), a memory size
(spec/00_scope.md R4) and a memory image (spec/30_encoding.md R74, spec/20_memory.md R31). -/

namespace Sys2Proof

/-- A pair (kind, address) as the spec writes instruction values. -/
structure InstrValue where
  kind : Kind
  address : Addr
deriving DecidableEq, Repr

/-- An instruction value is well formed when a no-address kind has address 0 (R57; spec/10_state.md R13). -/
def InstrValue.wellFormed (v : InstrValue) : Bool := v.kind.isAddressKind || v.address == 0

/-- The instruction value of an instruction. -/
def Instr.value (i : Instr) : InstrValue := ⟨i.kind, i.address⟩

/-- An instruction is well formed when its value is. -/
def Instr.wellFormed (i : Instr) : Bool := i.value.wellFormed

/-- A memory size is well formed when it is 1 to 4096 (R4). -/
def memSizeWellFormed (n : Nat) : Bool := (Config.ofMemSize? n).isSome

/-- Every write of the image names a cell of the memory (R31, R44: neither at or above MEM_SIZE nor negative). -/
def Image.inRange (memSize : Nat) (m : Image) : Bool :=
  m.all fun w => decide (0 ≤ w.address) && decide (w.address < memSize)

/-- No two writes of the image name one cell (R74: a text whose image does so is refused). -/
def Image.distinct : Image → Bool
  | [] => true
  | w :: rest => rest.all (fun x => decide (x.address ≠ w.address)) && Image.distinct rest

/-- An image LOAD can place whole. -/
def Image.wellFormed (memSize : Nat) (m : Image) : Bool := Image.inRange memSize m && Image.distinct m

end Sys2Proof
end

