-- ==== Sys2Proof/Decode.lean ====
section
/-! DEFINITION. The decoder's lookup table, decode and encode: spec/30_encoding.md R51 to R59. -/

namespace Sys2Proof

/-- The decoder's 16-entry lookup from the opcode field to a kind (R53; the numbers of nine kinds are decision D1). The
entries 12 to 15 are all NOP, written out (R58, R151). -/
def decoderTable : Vector Kind 16 :=
  #v[.sto, .lda, .brz, .add, .sub, .or, .and, .xor, .not, .inc, .dec, .zro,
     .nop, .nop, .nop, .nop]

/-- The table's answer for an opcode (R53). -/
def kindOfOpcode (op : Opcode) : Kind := decoderTable[op.toNat]'op.isLt

/-- The number of a kind; NOP's is 12 (R53, R56). -/
def Kind.opcode : Kind → Opcode
  | .sto => 0
  | .lda => 1
  | .brz => 2
  | .add => 3
  | .sub => 4
  | .or => 5
  | .and => 6
  | .xor => 7
  | .not => 8
  | .inc => 9
  | .dec => 10
  | .zro => 11
  | .nop => 12

/-- Bits 15:12 (R51, R52). -/
def opcodeField (w : Word) : Opcode := w.extractLsb' 12 4

/-- Bits 11:0 (R51). -/
def addressField (w : Word) : Addr := w.extractLsb' 0 12

/-- R55: total on the 65536 words. A no-address kind drops bits 11:0. -/
def decode (w : Word) : Instr := Instr.ofKind (kindOfOpcode (opcodeField w)) (addressField w)

/-- R56: the word of a kind and any integer address, reduced modulo 4096. A no-address kind ignores the address. -/
def encodeKind (k : Kind) (a : Int) : Word :=
  if k.isAddressKind then k.opcode ++ BitVec.ofInt 12 a else k.opcode ++ 0#12

/-- The word of an instruction (R56). -/
def encode (i : Instr) : Word := encodeKind i.kind i.address.toNat

/-- The host's question: what the decoder reads from an instruction whose bits are `w`. An instruction is one 16-bit word
(R50), its table bits numbered as the word's; a number that is no word of at most 16 bits is no instruction. -/
def decodeTableWord (nbits w : Nat) : Option Instr :=
  if nbits ≤ 16 ∧ w < 2 ^ nbits then some (decode (BitVec.ofNat 16 w)) else none

end Sys2Proof
end

