-- ==== Sys2Proof/Machine/State.lean ====
section
/-! DEFINITION. The state of the core (spec/10_state.md), its reset value (R24), and the reasons a step can stop. -/

namespace Sys2Proof.Machine

/-- R14. -/
inductive Phase where
  | idle
  | firstPhaseDone
deriving DecidableEq, Repr

/-- The three causes of a MemoryAddressError inside the core (spec/60_exceptions.md R161). -/
inductive Cause where
  | fetchOutOfRange
  | loadOutOfRange
  | storeOutOfRange
deriving DecidableEq, Repr

/-- What the fault register records (R18, R162). -/
structure FaultRecord where
  cause : Cause
  address : Addr
deriving DecidableEq, Repr

/-- The visualization snapshot (R19): every field absent unless the instruction fills it. -/
structure Snapshot where
  accOld : Option Word := none
  aluResult : Option Word := none
  memRead : Option Word := none
  branchTaken : Option Bool := none
deriving DecidableEq, Repr

/-- The cell array (R12): pairs of a cell address and its 16-bit value, addresses strictly rising, no entry 0, an unlisted
cell reading 0 (R24, R41). -/
abbrev Memory := List (Nat × Word)

/-- Everything the spec gives the core (spec/10_state.md), and the build parameter MEM_SIZE in `cfg`, which no step changes
(R22, spec/00_scope.md R4). -/
structure State where
  /-- the build parameter MEM_SIZE; not state of the core (R22) -/
  cfg : Config
  /-- the accumulator, R10 -/
  acc : Word
  /-- the program counter, R11 -/
  pc : Addr
  /-- the memory, R12 -/
  mem : Memory
  /-- the instruction register, R13 -/
  ir : Option Instr
  /-- the phase register, R14 -/
  phase : Phase
  /-- the branch-taken latch, R15 -/
  brTaken : Bool
  /-- the limit register; `none` is EMPTY, R16 -/
  maxPc : Option Addr
  /-- R17 -/
  instructionCount : Nat
  /-- R17 -/
  cycles : Nat
  /-- R17 -/
  branchCount : Nat
  /-- the fault register, R18 -/
  fault : Option FaultRecord
  /-- R19 -/
  snapshot : Snapshot
deriving DecidableEq, Repr

/-- The state after RESET for a given build (R24, R190). -/
def State.resetOf (c : Config) : State :=
  { cfg := c
    acc := 0
    pc := 0
    mem := []
    ir := none
    phase := .idle
    brTaken := false
    maxPc := none
    instructionCount := 0
    cycles := 0
    branchCount := 0
    fault := none
    snapshot := { accOld := none, aluResult := none, memRead := none, branchTaken := none } }

/-- The machine right after reset, with the default MEM_SIZE = 4096 (R24, spec/00_scope.md R4). -/
def State.reset : State := State.resetOf Config.standard

/-- Why a step stops with a fault. -/
inductive Fault where
  /-- Raised by FIRST, SECOND and STEP of a core whose fault register already holds `r`: the outcome Halted, with no state
  change (spec/60_exceptions.md R165). The spec's own outcome; safe (decision D16 errs toward refusing). -/
  | halted (r : FaultRecord)
deriving DecidableEq, Repr

/-- Why a command is refused. -/
inductive Refusal where
  /-- Raised by an arm of `exec` for an instruction without a meaning; no arm does. Safe. -/
  | notModelled (mnemonic : String)
  /-- Raised by FIRST and STEP in phase FirstPhaseDone and by SECOND in phase Idle: the outcome StepSequenceError, with no
  state change (spec/60_exceptions.md R166). The spec's own outcome; safe. -/
  | stepSequenceError
  /-- Raised by LOAD of an image that writes one cell twice: the spec leaves LOAD_ORDER open and has a model refuse
  (spec/30_encoding.md R74, decision D12). Safe. -/
  | loadOrderOpen
deriving DecidableEq, Repr

end Sys2Proof.Machine
end

