-- ==== Sys2Proof/Machine/Alu.lean ====
section
/-! DEFINITION. The ALU: spec/43_alu_memory.md R120. -/

namespace Sys2Proof.Machine

/-- The nine operations of the ALU (R120). -/
inductive AluOp where
  | add | sub | or | and | xor | not | inc | dec | zro
deriving DecidableEq, Repr

/-- R120: `a` is the accumulator, `b` the memory operand, which the one-input operations leave unused. All results wrap
modulo 65536 (R126). -/
def alu (op : AluOp) (a b : Word) : Word :=
  match op with
  | .add => a + b
  | .sub => a - b
  | .or => a ||| b
  | .and => a &&& b
  | .xor => a ^^^ b
  | .not => ~~~a
  | .inc => a + 1
  | .dec => a - 1
  | .zro => 0

end Sys2Proof.Machine
end

