-- ==== Sys2Proof/Machine/Ops.lean ====
section
/-! DEFINITION. The named operations over memory and registers: the memory controller (spec/20_memory.md R30 to R34), raising
a MemoryAddressError (spec/60_exceptions.md R162, R163), the host's read of a cell (R44), and `done`
(spec/40_cycle.md R84). -/

namespace Sys2Proof.Machine

/-- The value of a cell; an unlisted cell reads 0 (spec/10_state.md R24, spec/20_memory.md R41). -/
def Memory.peek : Memory → Nat → Word
  | [], _ => 0#16
  | (b, v) :: rest, a => if a = b then v else if a < b then 0#16 else Memory.peek rest a

/-- The memory with one cell changed, in canonical form: writing 0 takes the entry out. -/
def Memory.poke : Memory → Nat → Word → Memory
  | [], a, v => if v = 0#16 then [] else [(a, v)]
  | (b, u) :: rest, a, v =>
    if a < b then (if v = 0#16 then (b, u) :: rest else (a, v) :: (b, u) :: rest)
    else if a = b then (if v = 0#16 then rest else (a, v) :: rest)
    else (b, u) :: Memory.poke rest a v

/-- Addresses strictly rising from `lo` on, and no entry 0. -/
def Memory.wfFrom (lo : Nat) : Memory → Bool
  | [] => true
  | (b, v) :: rest => decide (lo ≤ b) && decide (v ≠ 0#16) && Memory.wfFrom (b + 1) rest

/-- The canonical form: addresses strictly rising, no entry equal to what an unlisted cell reads as. -/
def Memory.wf (m : Memory) : Bool := Memory.wfFrom 0 m

/-- Every listed cell lies below `n`. -/
def Memory.below (n : Nat) (m : Memory) : Bool := m.all fun c => decide (c.1 < n)

/-- MEM_SIZE of the core (spec/00_scope.md R4). -/
def State.memSize (s : State) : Nat := s.cfg.memSize

/-- R31: an access at `a` is in range exactly when `a < MEM_SIZE`. -/
def State.inRange (s : State) (a : Addr) : Bool := decide (a.toNat < s.memSize)

/-- The value of the cell at a 12-bit address. -/
def State.cell (s : State) (a : Addr) : Word := s.mem.peek a.toNat

/-- `MemRead(a, 1)` (R33). -/
def State.memRead (s : State) (cause : Cause) (a : Addr) : Except FaultRecord Word :=
  if s.inRange a then .ok (s.cell a) else .error ⟨cause, a⟩

/-- `MemWrite(a, 1, v)` (R34). -/
def State.memWrite (s : State) (a : Addr) (v : Word) : Except FaultRecord State :=
  if s.inRange a then .ok { s with mem := s.mem.poke a.toNat v } else .error ⟨.storeOutOfRange, a⟩

/-- Raising a MemoryAddressError: the cause and the address go into the fault register and nothing else changes
(spec/60_exceptions.md R162, R163; the write of `ir` before an operand access is step 5 of FIRST). There is no handler and
no return (R164, R165): only RESET and LOAD clear the register. -/
def State.raise (s : State) (r : FaultRecord) : State := { s with fault := some r }

/-- `acc <- v` (spec/10_state.md R10). -/
def State.setAcc (s : State) (v : Word) : State := { s with acc := v }

/-- A taken branch: `pc <- a` and `branch_count` grows by 1 (spec/42_branch.md R110). -/
def State.takeBranch (s : State) (a : Addr) : State :=
  { s with pc := a, branchCount := s.branchCount + 1 }

/-- What every instruction writes at its end: the branch-taken latch and the whole snapshot
(spec/40_cycle.md R86, R88). -/
def State.conclude (s : State) (taken : Bool) (shot : Snapshot) : State :=
  { s with brTaken := taken, snapshot := shot }

/-- `done` (spec/40_cycle.md R84). -/
def State.done (s : State) : Bool :=
  match s.maxPc with
  | none => true
  | some m => decide (m.toNat < s.pc.toNat)

/-- The host's read of a cell between commands. `none` is the outcome MemoryAddressError, for an address that is negative or
not below MEM_SIZE (spec/20_memory.md R44). -/
def State.hostRead (s : State) (a : Int) : Option Word :=
  if 0 ≤ a ∧ a < s.memSize then some (s.mem.peek a.toNat) else none

end Sys2Proof.Machine
end

