-- ==== Sys2Proof/Machine/AluAccumulator.lean ====
section
/-! DEFINITION. NOT, INC, DEC, ZRO: spec/44_alu_accumulator.md. -/

namespace Sys2Proof.Machine

/-- The four kinds share everything but the ALU operation. The ALU's second input is unused. -/
def aluOnAccumulator (op : AluOp) (s : State) : Host.Outcome State Fault Refusal :=
  .next ((s.setAcc (alu op s.acc 0)).conclude false
    { accOld := some s.acc, aluResult := some (alu op s.acc 0) })

/-- NOT (R140). -/
def execNot (s : State) : Host.Outcome State Fault Refusal := aluOnAccumulator .not s

/-- INC (R141). -/
def execInc (s : State) : Host.Outcome State Fault Refusal := aluOnAccumulator .inc s

/-- DEC (R142). -/
def execDec (s : State) : Host.Outcome State Fault Refusal := aluOnAccumulator .dec s

/-- ZRO (R143). -/
def execZro (s : State) : Host.Outcome State Fault Refusal := aluOnAccumulator .zro s

end Sys2Proof.Machine
end

