-- ==== Sys2Proof/Machine/Operands.lean ====
section
/-! DEFINITION. The operand form of the six kinds that read memory: the 12-bit address field, used as an absolute cell address
(spec/30_encoding.md R61, spec/20_memory.md R39). -/

namespace Sys2Proof.Machine

/-- Reads the memory operand at `a` and goes on with it. The bounds check comes before every write; where it fails the
instruction raises LoadOutOfRange (spec/60_exceptions.md R161, R163). -/
def withOperand (a : Addr) (s : State) (k : Word → State) : Host.Outcome State Fault Refusal :=
  match s.memRead .loadOutOfRange a with
  | .error r => .next (s.raise r)
  | .ok m => .next (k m)

end Sys2Proof.Machine
end

