-- ==== Sys2Proof/Machine/AluMemory.lean ====
section
/-! DEFINITION. ADD, SUB, OR, AND, XOR: spec/43_alu_memory.md section 2. -/

namespace Sys2Proof.Machine

/-- The five kinds share everything but the ALU operation (spec/43_alu_memory.md section 2). -/
def aluWithMemory (op : AluOp) (a : Addr) (s : State) : Host.Outcome State Fault Refusal :=
  withOperand a s fun m =>
    (s.setAcc (alu op s.acc m)).conclude false
      { accOld := some s.acc, aluResult := some (alu op s.acc m), memRead := some m }

/-- ADD `a` (R121). -/
def execAdd (a : Addr) (s : State) : Host.Outcome State Fault Refusal := aluWithMemory .add a s

/-- SUB `a` (R122). -/
def execSub (a : Addr) (s : State) : Host.Outcome State Fault Refusal := aluWithMemory .sub a s

/-- OR `a` (R123). -/
def execOr (a : Addr) (s : State) : Host.Outcome State Fault Refusal := aluWithMemory .or a s

/-- AND `a` (R124). -/
def execAnd (a : Addr) (s : State) : Host.Outcome State Fault Refusal := aluWithMemory .and a s

/-- XOR `a` (R125). -/
def execXor (a : Addr) (s : State) : Host.Outcome State Fault Refusal := aluWithMemory .xor a s

end Sys2Proof.Machine
end

