-- ==== Sys2Proof/Machine/Flags.lean ====
section
/-! DEFINITION. Conditions. The core has no flags; the one condition is computed from the accumulator's present value
(spec/10_state.md R20). -/

namespace Sys2Proof.Machine

/-- The condition of BRZ: all 16 bits of the accumulator are 0 when it executes (R20, spec/42_branch.md R110). -/
def State.accIsZero (s : State) : Bool := decide (s.acc = 0)

end Sys2Proof.Machine
end

