-- ==== Sys2Proof/Machine/Branch.lean ====
section
/-! DEFINITION. BRZ: spec/42_branch.md. -/

namespace Sys2Proof.Machine

/-- BRZ `a` (R110). It makes no operand access, so every target is accepted. -/
def execBrz (a : Addr) (s : State) : Host.Outcome State Fault Refusal :=
  if s.accIsZero then .next ((s.takeBranch a).conclude true { branchTaken := some true })
  else .next (s.conclude false { branchTaken := some false })

end Sys2Proof.Machine
end

