-- ==== Sys2Proof/Machine/Nop.lean ====
section
/-! DEFINITION. NOP: spec/45_nop.md. -/

namespace Sys2Proof.Machine

/-- NOP (R150), the opcodes 12 to 15 (R151). It writes only what every instruction writes. -/
def execNop (s : State) : Host.Outcome State Fault Refusal := .next (s.conclude false {})

end Sys2Proof.Machine
end

