-- ==== Sys2Proof/Machine/Transfer.lean ====
section
/-! DEFINITION. STO and LDA: spec/41_transfer.md. -/

namespace Sys2Proof.Machine

/-- STO `a` (R100). -/
def execSto (a : Addr) (s : State) : Host.Outcome State Fault Refusal :=
  match s.memWrite a s.acc with
  | .error r => .next (s.raise r)
  | .ok t => .next (t.conclude false {})

/-- LDA `a` (R101). -/
def execLda (a : Addr) (s : State) : Host.Outcome State Fault Refusal :=
  withOperand a s fun m => (s.setAcc m).conclude false { memRead := some m }

end Sys2Proof.Machine
end

