-- ==== Sys2Proof/Machine/Dispatch.lean ====
section
/-! DEFINITION. The execute step of the first phase: one arm per kind (spec/40_cycle.md R86). -/

namespace Sys2Proof.Machine

def exec (i : Instr) (s : State) : Host.Outcome State Fault Refusal :=
  match i with
  | .sto a => Sys2Proof.Machine.execSto a s
  | .lda a => Sys2Proof.Machine.execLda a s
  | .brz a => Sys2Proof.Machine.execBrz a s
  | .add a => Sys2Proof.Machine.execAdd a s
  | .sub a => Sys2Proof.Machine.execSub a s
  | .or a => Sys2Proof.Machine.execOr a s
  | .and a => Sys2Proof.Machine.execAnd a s
  | .xor a => Sys2Proof.Machine.execXor a s
  | .not => Sys2Proof.Machine.execNot s
  | .inc => Sys2Proof.Machine.execInc s
  | .dec => Sys2Proof.Machine.execDec s
  | .zro => Sys2Proof.Machine.execZro s
  | .nop => Sys2Proof.Machine.execNop s

end Sys2Proof.Machine
end

