-- ==== Sys2Proof/Machine/Cycle.lean ====
section
/-! DEFINITION. The fetch/execute and commit state machine: FIRST, SECOND and STEP of spec/40_cycle.md. A command that ends
Ok answers a next state whose fault register is empty; one that ends MemoryAddressError a next state whose fault register
records it; Halted is the fault, StepSequenceError the refusal, both with no state change (R80). -/

namespace Sys2Proof.Machine

/-- Step 7 of FIRST, reached only when the execute step raised no error (R81). -/
def endFirst (s : State) : State :=
  match s.fault with
  | none => { s with phase := .firstPhaseDone }
  | some _ => s

/-- Steps 4 to 7 of FIRST for the word `w` that was fetched (R81). -/
def executeWord (w : Word) (s : State) : Host.Outcome State Fault Refusal :=
  match exec (decode w) { s with ir := some (decode w) } with
  | .next t => .next (endFirst t)
  | .fault f => .fault f
  | .refused r => .refused r

/-- FIRST (R81), its checks in the order of R87. -/
def first (s : State) : Host.Outcome State Fault Refusal :=
  match s.fault with
  | some r => .fault (.halted r)
  | none =>
    match s.phase with
    | .firstPhaseDone => .refused .stepSequenceError
    | .idle =>
      match s.memRead .fetchOutOfRange s.pc with
      | .error r => .next (s.raise r)
      | .ok w => executeWord w s

/-- Steps 3 to 7 of SECOND (R82): `pc` advances modulo 4096 unless the branch-taken latch is set. -/
def commit (s : State) : State :=
  { s with
    pc := if s.brTaken then s.pc else s.pc + 1
    ir := none
    instructionCount := s.instructionCount + 1
    cycles := s.cycles + 1
    phase := .idle }

/-- SECOND (R82). -/
def second (s : State) : Host.Outcome State Fault Refusal :=
  match s.fault with
  | some r => .fault (.halted r)
  | none =>
    match s.phase with
    | .idle => .refused .stepSequenceError
    | .firstPhaseDone => .next (commit s)

/-- STEP (R83): FIRST and, if it ended Ok, SECOND. -/
def wholeStep (s : State) : Host.Outcome State Fault Refusal :=
  match first s with
  | .next t =>
    match t.fault with
    | none => second t
    | some _ => .next t
  | .fault f => .fault f
  | .refused r => .refused r

end Sys2Proof.Machine
end

