-- ==== Sys2Proof/Machine/Step.lean ====
section
/-! DEFINITION. One step of the machine: the command STEP (spec/40_cycle.md R83), and the placing of an instruction where it
fetches next. -/

namespace Sys2Proof.Machine

/-- One step: one whole instruction, both phases (R83). -/
def step (s : State) : Host.Outcome State Fault Refusal := wholeStep s

/-- The state with the instruction whose bits are `w` in the cell at `pc`, ready to be fetched: a fetch happens in phase Idle
with no fault recorded (R81). Where `pc` names no cell there is none to write. -/
def State.withFetchWord (s : State) (nbits w : Nat) : State :=
  { s with
    mem := if s.inRange s.pc then s.mem.poke s.pc.toNat (BitVec.ofNat 16 (w % 2 ^ nbits)) else s.mem
    phase := .idle
    fault := none }

end Sys2Proof.Machine
end

