-- ==== Sys2Proof/Machine/Load.lean ====
section
/-! DEFINITION. RESET and LOAD: spec/70_reset_and_hazards.md R190, R191. -/

namespace Sys2Proof.Machine

/-- RESET: every piece of state at its reset value, MEM_SIZE kept (R190). -/
def resetState (s : State) : State := State.resetOf s.cfg

/-- The memory after the writes of an image, each value reduced modulo 65536 (R191 step 3). -/
def writeImage : Image → Memory → Memory
  | [], m => m
  | w :: rest, m => writeImage rest (Memory.poke m w.address.toNat (BitVec.ofInt 16 w.value))

/-- The state after a LOAD that ends Ok: steps 2 to 4 of R191. -/
def loadedState (image : Image) (maxPc : Option Addr) (s : State) : State :=
  { resetState s with mem := writeImage image [], maxPc := maxPc }

end Sys2Proof.Machine
end

