-- ==== Sys2Proof/Machine/Commands.lean ====
section
/-! DEFINITION. The commands of the core and their outcomes: spec/40_cycle.md R80, R85, R89. -/

namespace Sys2Proof.Machine

/-- The six commands (R80). -/
inductive Command where
  | reset
  | load (image : Image) (maxPc : Option Addr)
  | first
  | second
  | step
  | run
deriving DecidableEq, Repr

/-- The four outcomes a command ends in (R80). -/
inductive Reply where
  | ok
  | stepSequenceError
  | memoryAddressError
  | halted
deriving DecidableEq, Repr

/-- What performing a command comes to. -/
inductive Performed where
  /-- the command ended: its outcome and the state after it -/
  | ended (reply : Reply) (state : State)
  /-- RUN has not ended within the steps looked at; it goes on (R85, R197) -/
  | running
  /-- the model gives the command no meaning: LOAD of an image that writes one cell twice (spec/30_encoding.md R74) -/
  | refused (why : Refusal)
deriving DecidableEq, Repr

/-- The outcome and the state after a command issued in `s`, from what the step machine answers (R80). -/
def answer (s : State) : Host.Outcome State Fault Refusal → Performed
  | .next t =>
    match t.fault with
    | none => .ended .ok t
    | some _ => .ended .memoryAddressError t
  | .fault (.halted _) => .ended .halted s
  | .refused .stepSequenceError => .ended .stepSequenceError s
  | .refused r => .refused r

/-- LOAD (spec/70_reset_and_hazards.md R191). An image that writes one cell twice is refused (spec/30_encoding.md R74); one
with an out-of-range write leaves the core in the RESET state. -/
def load (image : Image) (maxPc : Option Addr) (s : State) : Performed :=
  if Image.distinct image = false then .refused .loadOrderOpen
  else if Image.inRange s.memSize image then .ended .ok (loadedState image maxPc s)
  else .ended .memoryAddressError (resetState s)

/-- The loop of RUN (R85), looked at for at most `fuel` steps: `done` is tested before every STEP, and an outcome other than
Ok ends RUN with that outcome. The machine itself has no step limit. -/
def runLoop : Nat → State → Performed
  | 0, s => if s.done then .ended .ok s else .running
  | fuel + 1, s =>
    if s.done then .ended .ok s
    else
      match answer s (wholeStep s) with
      | .ended .ok t => runLoop fuel t
      | r => r

/-- RUN (R85). A halted core refuses it before anything else (R89, spec/60_exceptions.md R165). -/
def run (fuel : Nat) (s : State) : Performed :=
  match s.fault with
  | some _ => .ended .halted s
  | none => runLoop fuel s

/-- One command. `fuel` bounds only how far a RUN is followed. -/
def perform (fuel : Nat) (c : Command) (s : State) : Performed :=
  match c with
  | .reset => .ended .ok (resetState s)
  | .load image maxPc => load image maxPc s
  | .first => answer s (first s)
  | .second => answer s (second s)
  | .step => answer s (step s)
  | .run => run fuel s

/-- RUN never ends from `s` (R197). -/
def RunsForever (s : State) : Prop := ∀ fuel, run fuel s = .running

end Sys2Proof.Machine
end

