-- ==== Sys2Proof/Machine/Assembler.lean ====
section
/-! DEFINITION. The assembler: from a text to a memory image and `max_pc`, spec/30_encoding.md R64 to R76. The lexical details
are decision D13. -/

namespace Sys2Proof.Machine

/-- Why a text gives no image. -/
inductive AsmError where
  /-- `ParserSyntaxException`: the number of the first line that matches no form, counted from 1, and its text (R72) -/
  | syntaxError (lineNumber : Nat) (lineText : Text)
  /-- a use of a name that no line binds (R72, decision D13) -/
  | undefinedName (name : Text)
  /-- a name bound twice (R72, decision D13) -/
  | duplicateName (name : Text)
  /-- two writes of the image name one cell: refused, LOAD_ORDER is open (R74, decision D12) -/
  | loadOrderOpen
deriving DecidableEq, Repr

/-- An operand before its name is resolved (R66). -/
inductive Operand where
  | literal (value : Nat)
  | name (text : Text)
deriving DecidableEq, Repr

/-- A line of the text, read (R64 to R69). -/
inductive Line where
  | blank
  | instruction (kind : Kind) (operand : Option Operand)
  | constant (name : Text) (value : Nat)
  | label (name : Text)
  | data (address value : Nat)
deriving DecidableEq, Repr

/-- The result of a successful assembly (R74). -/
structure Assembled where
  image : Image
  maxPc : Option Nat
deriving DecidableEq, Repr

/-- Spaces and tabs (R64). -/
def isBlank (c : Char) : Bool := c == ' ' || c == '\t'

/-- A text without the blanks at its two ends (R64). -/
def trim (t : Text) : Text := ((t.dropWhile isBlank).reverse.dropWhile isBlank).reverse

/-- A line without its comment and without the blanks at its ends (R64). -/
def clean (raw : Text) : Text := trim (raw.takeWhile (· != '#'))

/-- The parts before and after the first `c`, if there is one. -/
def cut (c : Char) : Text → Option (Text × Text)
  | [] => none
  | x :: rest => if x = c then some ([], rest) else (cut c rest).map fun p => (x :: p.1, p.2)

/-- The lines of a text. -/
def splitLines : Text → List Text
  | [] => [[]]
  | c :: rest =>
    if c = '\n' then [] :: splitLines rest
    else
      match splitLines rest with
      | [] => [[c]]
      | l :: ls => (c :: l) :: ls

/-- The value of a decimal digit. -/
def decimalValue (c : Char) : Option Nat :=
  if '0'.toNat ≤ c.toNat ∧ c.toNat ≤ '9'.toNat then some (c.toNat - '0'.toNat) else none

/-- The value of a hexadecimal digit in either case (R66). -/
def hexValue (c : Char) : Option Nat :=
  if '0'.toNat ≤ c.toNat ∧ c.toNat ≤ '9'.toNat then some (c.toNat - '0'.toNat)
  else if 'A'.toNat ≤ c.toNat ∧ c.toNat ≤ 'F'.toNat then some (c.toNat - 'A'.toNat + 10)
  else if 'a'.toNat ≤ c.toNat ∧ c.toNat ≤ 'f'.toNat then some (c.toNat - 'a'.toNat + 10)
  else none

/-- The number whose further digits are the text, `n` being the value of those before. -/
def numberFrom (base : Nat) (digit : Char → Option Nat) (n : Nat) : Text → Option Nat
  | [] => some n
  | c :: rest =>
    match digit c with
    | some d => numberFrom base digit (n * base + d) rest
    | none => none

/-- A number of one or more digits. -/
def parseNumber (base : Nat) (digit : Char → Option Nat) : Text → Option Nat
  | [] => none
  | c :: rest => numberFrom base digit 0 (c :: rest)

/-- A decimal integer without a sign, or a hex literal with the prefix `$` or `0x` (R66, decision D11). -/
def parseLiteral : Text → Option Nat
  | '$' :: rest => parseNumber 16 hexValue rest
  | '0' :: 'x' :: rest => parseNumber 16 hexValue rest
  | t => parseNumber 10 decimalValue t

/-- The mnemonic of a kind: its name (R65). -/
def Kind.mnemonic : Kind → Text
  | .sto => ['S', 'T', 'O']
  | .lda => ['L', 'D', 'A']
  | .brz => ['B', 'R', 'Z']
  | .add => ['A', 'D', 'D']
  | .sub => ['S', 'U', 'B']
  | .or => ['O', 'R']
  | .and => ['A', 'N', 'D']
  | .xor => ['X', 'O', 'R']
  | .not => ['N', 'O', 'T']
  | .inc => ['I', 'N', 'C']
  | .dec => ['D', 'E', 'C']
  | .zro => ['Z', 'R', 'O']
  | .nop => ['N', 'O', 'P']

/-- The 13 kinds. -/
def allKinds : List Kind :=
  [.sto, .lda, .brz, .add, .sub, .or, .and, .xor, .not, .inc, .dec, .zro, .nop]

/-- The kind a mnemonic names, without regard to letter case (R65). -/
def parseMnemonic (t : Text) : Option Kind :=
  allKinds.find? fun k => Kind.mnemonic k == t.map Char.toUpper

/-- A character a name may begin with (R67). -/
def isNameStart (c : Char) : Bool :=
  c == '_' || (decide ('A'.toNat ≤ c.toNat) && decide (c.toNat ≤ 'Z'.toNat)) ||
    (decide ('a'.toNat ≤ c.toNat) && decide (c.toNat ≤ 'z'.toNat))

/-- A letter or underscore, then letters, digits and underscores, and not a mnemonic in any letter case (R67). -/
def isName : Text → Bool
  | [] => false
  | c :: rest =>
    isNameStart c && rest.all (fun x => isNameStart x || (decimalValue x).isSome) &&
      (parseMnemonic (c :: rest)).isNone

/-- An operand: a literal or a name (R66). -/
def parseOperand (t : Text) : Option Operand :=
  match parseLiteral t with
  | some n => some (.literal n)
  | none => if isName t then some (.name t) else none

/-- An instruction line: an address-kind has an operand, a no-address kind has none (R65). -/
def parseInstruction (t : Text) : Option Line :=
  match parseMnemonic (t.takeWhile fun c => !isBlank c), trim (t.dropWhile fun c => !isBlank c) with
  | none, _ => none
  | some k, rest =>
    if k.isAddressKind then (parseOperand rest).map fun o => .instruction k (some o)
    else if rest = [] then some (.instruction k none)
    else none

/-- A constant line, from the text before its equals sign and the text after. R67 shows a space on each side of the sign, so one
or more blanks stand there (R64). -/
def parseConstant (before after : Text) : Option Line :=
  if before.getLast?.any isBlank ∧ after.head?.any isBlank ∧ isName (trim before) then
    (parseLiteral (trim after)).map fun v => .constant (trim before) v
  else none

/-- A label line, the text before its colon and the text after (R68). -/
def parseLabel (name after : Text) : Option Line :=
  if isName name ∧ after = [] then some (.label name) else none

/-- A data line, from the text after its first colon (R69). -/
def parseData (t : Text) : Option Line :=
  match cut ':' t with
  | none => none
  | some (a, v) =>
    match parseLiteral (trim a), parseLiteral (trim v) with
    | some n, some m => some (.data n m)
    | _, _ => none

/-- One line of the text. `none`: it matches no form of the grammar (R64, R72). -/
def parseLine (raw : Text) : Option Line :=
  match clean raw with
  | [] => some .blank
  | c :: t =>
    if c = ':' then parseData t
    else
      match cut '=' (c :: t) with
      | some (before, after) => parseConstant before after
      | none =>
        match cut ':' (c :: t) with
        | some (name, after) => parseLabel (trim name) after
        | none => parseInstruction (c :: t)

/-- The lines read, or the first that matches no form; `n` is the number of the next line (R72). -/
def parseLines : Nat → List Text → Except AsmError (List Line)
  | _, [] => .ok []
  | n, raw :: rest =>
    match parseLine raw with
    | none => .error (.syntaxError n raw)
    | some l =>
      match parseLines (n + 1) rest with
      | .error e => .error e
      | .ok ls => .ok (l :: ls)

/-- The names the lines bind; `here` is the current instruction address (R67, R68, R70). -/
def bindings (here : Nat) : List Line → List (Text × Nat)
  | [] => []
  | .instruction _ _ :: rest => bindings (here + 1) rest
  | .constant name value :: rest => (name, value) :: bindings here rest
  | .label name :: rest => (name, here) :: bindings here rest
  | .blank :: rest | .data _ _ :: rest => bindings here rest

/-- A name bound twice, if there is one: of several, the one bound first. DESIGN CHOICE (log 24). -/
def boundTwice : List (Text × Nat) → Option Text
  | [] => none
  | (name, _) :: rest => if rest.any (fun p => p.1 == name) then some name else boundTwice rest

/-- The value of an operand; a no-address kind has none and is encoded with 0 (R56, R66). -/
def operandValue (env : List (Text × Nat)) : Option Operand → Except AsmError Nat
  | none => .ok 0
  | some (.literal n) => .ok n
  | some (.name t) =>
    match env.lookup t with
    | some n => .ok n
    | none => .error (.undefinedName t)

/-- The writes of the lines: the k-th instruction at address k, a data line at its own address (R69, R70). Of several names without a
binding the first used is reported. DESIGN CHOICE (log 24). -/
def emit (env : List (Text × Nat)) (here : Nat) : List Line → Except AsmError Image
  | [] => .ok []
  | .instruction k operand :: rest =>
    match operandValue env operand, emit env (here + 1) rest with
    | .error e, _ => .error e
    | .ok _, .error e => .error e
    | .ok n, .ok image => .ok (⟨here, (encodeKind k n).toNat⟩ :: image)
  | .data a v :: rest =>
    match emit env here rest with
    | .error e => .error e
    | .ok image => .ok (⟨a, (v % 65536 : Nat)⟩ :: image)
  | .blank :: rest | .constant _ _ :: rest | .label _ :: rest => emit env here rest

/-- The number of instruction lines. -/
def instructionLines : List Line → Nat
  | [] => 0
  | .instruction _ _ :: rest => instructionLines rest + 1
  | .blank :: rest | .constant _ _ :: rest | .label _ :: rest | .data _ _ :: rest => instructionLines rest

/-- The highest instruction address, or EMPTY (R71). -/
def lastInstruction (n : Nat) : Option Nat := if n = 0 then none else some (n - 1)

/-- The image and `max_pc` of lines that were all read. R72 and R74 say only that a twice-bound name, a name without a binding and
a cell written twice each leave no image. DESIGN CHOICE (log 24): a text with several of these defects is answered with the first
that applies of `duplicateName`, `undefinedName`, `loadOrderOpen`. -/
def assembleLines (ls : List Line) : Except AsmError Assembled :=
  match boundTwice (bindings 0 ls) with
  | some name => .error (.duplicateName name)
  | none =>
    match emit (bindings 0 ls) 0 ls with
    | .error e => .error e
    | .ok image =>
      if Image.distinct image then .ok ⟨image, lastInstruction (instructionLines ls)⟩
      else .error .loadOrderOpen

/-- The assembly of a text (R64 to R74). -/
def assemble (text : Text) : Except AsmError Assembled :=
  match parseLines 1 (splitLines text) with
  | .error e => .error e
  | .ok ls => assembleLines ls

/-- `load_program`: assembly, then LOAD of its result. A text that fails to assemble never reaches LOAD, so the core keeps its
state (spec/70_reset_and_hazards.md R191). -/
def loadProgram (text : Text) (s : State) : Except AsmError Performed :=
  match assemble text with
  | .error e => .error e
  | .ok p => .ok (load p.image (p.maxPc.map (BitVec.ofNat 12)) s)

end Sys2Proof.Machine
end

