-- ==== Sys2Proof/Machine/Serializer.lean ====
section
/-! DEFINITION. Machine-code export: spec/30_encoding.md R62. -/

namespace Sys2Proof.Machine

/-- The digit characters, `0-9A-F`. -/
def digitChars : Vector Char 16 :=
  #v['0', '1', '2', '3', '4', '5', '6', '7', '8', '9', 'A', 'B', 'C', 'D', 'E', 'F']

/-- The uppercase hexadecimal digit of a 4-bit value. -/
def hexDigit (d : BitVec 4) : Char := digitChars[d.toNat]'d.isLt

/-- `to_binary`: 16 characters, bit 15 first (R62). -/
def toBinary (w : Word) : Text := (List.range 16).map fun p => if w.getMsbD p then '1' else '0'

/-- `to_hex`: 4 digits, the digit of bits 15:12 first (R62). -/
def toHex (w : Word) : Text :=
  [hexDigit (w.extractLsb' 12 4), hexDigit (w.extractLsb' 8 4), hexDigit (w.extractLsb' 4 4), hexDigit (w.extractLsb' 0 4)]

/-- The binary export of an instruction: of its encoded word, so alias opcodes and ignored bits never appear (R62). -/
def exportBinary (i : Instr) : Text := toBinary (encode i)

/-- The hexadecimal export of an instruction (R62). -/
def exportHex (i : Instr) : Text := toHex (encode i)

end Sys2Proof.Machine
end

