-- ==== Sys2Proof/Machine/Debug.lean ====
section
/-! DEFINITION. The host's debug listing: spec/20_memory.md R44, R45. -/

namespace Sys2Proof.Machine

/-- The decimal digits of `n` put before `tail`, at most `fuel` of them. -/
def decimalOnto : Nat → Nat → Text → Text
  | 0, _, tail => tail
  | fuel + 1, n, tail =>
    if n < 10 then hexDigit (BitVec.ofNat 4 n) :: tail
    else decimalOnto fuel (n / 10) (hexDigit (BitVec.ofNat 4 (n % 10)) :: tail)

/-- A number of at most five decimal digits, unpadded; every 16-bit value is one. -/
def decimal (n : Nat) : Text := decimalOnto 5 n []

/-- The four strings of one line of the listing (R45). -/
structure DebugRow where
  binary : Text
  unsigned : Text
  hexBytes : Text
  signed : Text
deriving DecidableEq, Repr

/-- R45: 16 binary digits, unsigned decimal, high byte then low byte in hexadecimal, two's-complement decimal. -/
def debugRow (v : Word) : DebugRow :=
  { binary := toBinary v
    unsigned := decimal v.toNat
    hexBytes := (toHex v).take 2 ++ ' ' :: (toHex v).drop 2
    signed := if v.toNat < 32768 then decimal v.toNat else '-' :: decimal (65536 - v.toNat) }

/-- The listing of the requested addresses. `none` is the outcome MemoryAddressError, for a request that names an address out
of range or negative (R44); the core's state is not touched. -/
def debugRows (s : State) : List Int → Option (List DebugRow)
  | [] => some []
  | a :: rest =>
    match s.hostRead a, debugRows s rest with
    | some v, some rows => some (debugRow v :: rows)
    | _, _ => none

end Sys2Proof.Machine
end

