-- ==== Sys2Proof/Machine/MicroProgram.lean ====
section
/-! DEFINITION. The micro-program table's read functions: spec/46_microprogram.md R155, R156. Execution never reads the table
(R157), and its contents are the open parameter Config.mpt (R158). -/

namespace Sys2Proof.Machine

/-- The 12 signal names, most significant bit first, spelled as R155 spells them. -/
def signalNames : List String :=
  ["write[ram]", "inc[pc]", "set[pc]", "addr=ir", "set[ir]", "set[accu]",
   "aluinc", "alumode", "alu3", "alu2", "alu1", "alu0"]

/-- `UnknownSignalError` (R156, spec/60_exceptions.md R171): raised by `getSignal`; it touches no state. -/
inductive UnknownSignalError where
  | unknownSignal (name : String)
deriving DecidableEq, Repr

/-- `get_values`: the 12 booleans of the kind's control word, most significant first (R156). -/
def getValues (k : Kind) : List Bool := (List.range 12).map fun p => (Config.mpt k).getMsbD p

/-- `get_signal`: the boolean at the position of the name (R156). -/
def getSignal (k : Kind) (name : String) : Except UnknownSignalError Bool :=
  match signalNames.idxOf? name with
  | some p => .ok ((Config.mpt k).getMsbD p)
  | none => .error (.unknownSignal name)

end Sys2Proof.Machine
end

