-- ==== Sys2Proof/Safety.lean ====
section
/-! DEFINITION. What claims about safe runs are stated in: the invariant of every state a command leaves, and when an instruction
is ready to run. -/

namespace Sys2Proof.Machine

/-- The memory is canonical and lists no cell outside the memory (spec/10_state.md R12, spec/20_memory.md R31). -/
def State.memoryOk (s : State) : Bool := Memory.wf s.mem && Memory.below s.memSize s.mem

/-- The instruction is one whose operand access has this cause (spec/60_exceptions.md R161). -/
def Cause.isOf (c : Cause) (i : Instr) : Bool :=
  match c with
  | .fetchOutOfRange => false
  | .storeOutOfRange => i.kind == .sto
  | .loadOutOfRange =>
    i.kind == .lda || i.kind == .add || i.kind == .sub || i.kind == .or || i.kind == .and || i.kind == .xor

/-- Between the phases the latch is set only for a BRZ that was taken: the accumulator is 0 and `pc` is its target
(spec/10_state.md R11, R15, spec/42_branch.md R110). -/
def State.latchOk (s : State) (i : Instr) : Bool :=
  !s.brTaken || (i.kind == .brz && s.pc == i.address && s.acc == 0)

/-- How `phase`, `ir`, `fault` and `brTaken` hang together (spec/10_state.md R13, R14, spec/60_exceptions.md R161, R163). -/
def State.phaseOk (s : State) : Bool :=
  match s.phase, s.fault, s.ir with
  | .idle, none, none => true
  | .firstPhaseDone, none, some i => s.latchOk i
  | .idle, some r, none => r.cause == .fetchOutOfRange && r.address == s.pc && !s.inRange s.pc
  | .idle, some r, some i => r.cause.isOf i && r.address == i.address && !s.inRange r.address
  | _, _, _ => false

/-- `cycles` equals `instruction_count` (conflict C5), and taken branches are no more than instructions, the one between its
phases counted (spec/10_state.md R17, spec/42_branch.md R110). -/
def State.countersOk (s : State) : Bool :=
  s.cycles == s.instructionCount &&
    decide (s.branchCount ≤ s.instructionCount + if s.phase = .firstPhaseDone ∧ s.brTaken then 1 else 0)

/-- The invariant of every state that commands lead to from RESET. -/
def State.inv (s : State) : Bool := s.memoryOk && s.phaseOk && s.countersOk

/-- An instruction can be fetched: no fault is recorded, no instruction is between its phases, and `pc` names a cell
(spec/40_cycle.md R81). -/
def State.ready (s : State) : Bool := s.fault == none && s.phase == .idle && s.inRange s.pc

end Sys2Proof.Machine
end

