-- ==== Sys2Proof/Certificates/Slice0/Obligations.lean ====
section
/-! DEFINITION. The statements for the provers, file by file of spec/. In the statements about one instruction the clauses on
the latch, the fault register, the snapshot and nine of the opcode numbers are the spec's decisions D3, D4, D9 and D1, as the
instruction's own rule writes them. -/

namespace Sys2Proof.Statement

open Sys2Proof.Machine

/-- What a whole instruction that is not a taken branch does beside its own effect: `pc` advances, `ir` is cleared, the latch is
0, and the two counters grow (spec/40_cycle.md R81, R82). -/
def retired (s : State) : State :=
  { s with
    pc := s.pc + 1
    ir := none
    brTaken := false
    instructionCount := s.instructionCount + 1
    cycles := s.cycles + 1 }

/-- The instruction at `pc` of a core that is ready is `i`. -/
def fetches (s : State) (i : Instr) : Prop := s.ready = true ∧ decode (s.cell s.pc) = i

/-- The common rule of spec/43_alu_memory.md section 2, for the instruction `i a` of opcode number `op` whose result is `f` of
the accumulator and the cell: encoding, execute step in and out of range, and the whole instruction. -/
def memoryOperandRule (i : Addr → Instr) (op : Nat) (f : Word → Word → Word) : Prop :=
  ∀ (a : Addr) (s : State),
    (encode (i a)).toNat = op * 4096 + a.toNat ∧
    (a.toNat < s.memSize →
      exec (i a) s = .next { s with
        acc := f s.acc (s.cell a)
        brTaken := false
        snapshot := { accOld := some s.acc, aluResult := some (f s.acc (s.cell a)), memRead := some (s.cell a) } }) ∧
    (s.memSize ≤ a.toNat → exec (i a) s = .next { s with fault := some ⟨.loadOutOfRange, a⟩ }) ∧
    (fetches s (i a) → a.toNat < s.memSize →
      step s = .next { retired s with
        acc := f s.acc (s.cell a)
        snapshot := { accOld := some s.acc, aluResult := some (f s.acc (s.cell a)), memRead := some (s.cell a) } })

/-- The common rule of spec/44_alu_accumulator.md, for the instruction `i` of opcode number `op` whose result is `f` of the
accumulator: encoding, the words that decode to it, execute step, and the whole instruction. -/
def accumulatorRule (i : Instr) (op : Nat) (f : Word → Word) : Prop :=
  (encode i).toNat = op * 4096 ∧
  (∀ w : Word, w.toNat / 4096 = op → decode w = i) ∧
  ∀ s : State,
    exec i s = .next { s with
      acc := f s.acc
      brTaken := false
      snapshot := { accOld := some s.acc, aluResult := some (f s.acc) } } ∧
    (fetches s i →
      step s = .next { retired s with
        acc := f s.acc
        snapshot := { accOld := some s.acc, aluResult := some (f s.acc) } })

/-- The core loaded with a program: the words of the instructions from address `here` on, as image writes. -/
def programImage (here : Nat) : List Instr → Image
  | [] => []
  | i :: rest => ⟨here, (encode i).toNat⟩ :: programImage (here + 1) rest

/-- The instruction lines among the lines of a text, in their order. -/
def instructionsOf : List Line → List (Kind × Option Operand)
  | [] => []
  | .instruction k o :: rest => (k, o) :: instructionsOf rest
  | .blank :: rest | .constant _ _ :: rest | .label _ :: rest | .data _ _ :: rest => instructionsOf rest

/-- The instruction is a BRZ whose condition holds. -/
def takenBranch (i : Instr) (s : State) : Bool := i.kind == .brz && s.acc == 0

end Sys2Proof.Statement

open Sys2Proof Sys2Proof.Machine Sys2Proof.Statement

/-! ## Encoding (spec/30_encoding.md) -/

/-- R57, both directions. -/
def Obligations.DecodeEncodeRoundTrip : Prop :=
  (∀ i : Instr, i.wellFormed = true → decode (encode i) = i) ∧
  (∀ w : Word, encode (decode w) =
    if w.toNat < 32768 then w else if w.toNat < 49152 then w &&& 0xF000#16 else 0xC000#16) ∧
  (∀ w : Word, 32768 ≤ w.toNat → w.toNat < 53248 → (encode (decode w) = w ↔ w.toNat % 4096 = 0))

/-- R56: the word of a kind and any integer address. -/
def Obligations.EncodeIsOpcodeAndReducedAddress : Prop :=
  ∀ (k : Kind) (a : Int),
    (encodeKind k a).toNat = k.opcode.toNat * 4096 + if k.isAddressKind then (a % 4096).toNat else 0

/-- R55: every word decodes to the table's kind for its opcode and to its low 12 bits, or 0 for a no-address kind. -/
def Obligations.DecodeReadsOpcodeAndAddress : Prop :=
  ∀ w : Word,
    decoderTable.toList[w.toNat / 4096]? = some (decode w).kind ∧
    (12 ≤ w.toNat / 4096 → (decode w).kind = .nop) ∧
    (decode w).kind.isAddressKind = decide (w.toNat / 4096 ≤ 7) ∧
    (decode w).address.toNat = if w.toNat / 4096 ≤ 7 then w.toNat % 4096 else 0

/-- The opcode map. The numbers of nine kinds are the spec's decision D1 (log 7), so this rests on the spec's section, not on a
rule of the source. -/
def Obligations.OpcodeMapFollowsListOrder : Prop :=
  (List.range 16).map (fun n => kindOfOpcode (BitVec.ofNat 4 n)) =
    [.sto, .lda, .brz, .add, .sub, .or, .and, .xor, .not, .inc, .dec, .zro, .nop, .nop, .nop, .nop] ∧
  (∀ k : Kind, kindOfOpcode k.opcode = k) ∧
  (∀ op : Opcode, (kindOfOpcode op).isAddressKind = !op.getLsbD 3)

/-- R60: decoded instructions are equal exactly when their kinds are, and for address-kinds their addresses. -/
def Obligations.EqualInstructionsAreSameKindAndAddress : Prop :=
  (∀ w x : Word, decode w = decode x ↔
    (decode w).kind = (decode x).kind ∧
      ((decode w).kind.isAddressKind = true → w.toNat % 4096 = x.toNat % 4096)) ∧
  decode 0xD123#16 = decode 0xC000#16

/-- Format N: bits 11:0 change nothing, and the decoded address is 0 (spec/30_encoding.md section 3, which marks this as derived
from R52 and R55). -/
def Obligations.LowBitsOfFormatNAreIgnored : Prop :=
  ∀ (op : Opcode) (low other : Addr), 8 ≤ op.toNat →
    decode (op ++ low) = decode (op ++ other) ∧ (decode (op ++ low)).address = 0 ∧
    encode (decode (op ++ low)) = (if op.toNat < 12 then op else 12#4) ++ 0#12

/-- R151: the opcodes 13, 14, 15 decode to NOP, re-encode and export as opcode 12, and run as NOP, the cell keeping its word. -/
def Obligations.AliasOpcodesAreNop : Prop :=
  ∀ w : Word, 0xC000 ≤ w.toNat →
    decode w = .nop ∧ encode (decode w) = 0xC000#16 ∧
    exportBinary (decode w) = "1100000000000000".toList ∧ exportHex (decode w) = "C000".toList ∧
    ∀ s : State, s.ready = true → s.cell s.pc = w → step s = .next { retired s with snapshot := {} }

/-- A few words written out from the encoding tables (spec/95_test_vectors.md, V-ENC). -/
def Obligations.WordsOfTheTableDecode : Prop :=
  decode 0x0000#16 = .sto 0 ∧ decode 0x1FFF#16 = .lda 4095 ∧ decode 0x2ABC#16 = .brz 2748 ∧ decode 0x3005#16 = .add 5 ∧
  decode 0x4FFF#16 = .sub 4095 ∧ decode 0x500A#16 = .or 10 ∧ decode 0x6009#16 = .and 9 ∧ decode 0x7001#16 = .xor 1 ∧
  decode 0x8123#16 = .not ∧ decode 0x9FFF#16 = .inc ∧ decode 0xA001#16 = .dec ∧ decode 0xBABC#16 = .zro ∧
  decode 0xC000#16 = .nop ∧ decode 0xE5A5#16 = .nop

/-- R62: the two export strings, of the encoded word. The hexadecimal one is read back by the assembler's own literal. -/
def Obligations.ExportStringsSpellTheWord : Prop :=
  (∀ (w : Word) (p : Nat), (toBinary w)[p]? =
    if p < 16 then some (if w.getLsbD (15 - p) then '1' else '0') else none) ∧
  (∀ (w : Word) (p : Nat), (toHex w)[p]? =
    if p < 4 then "0123456789ABCDEF".toList[w.toNat / 16 ^ (3 - p) % 16]? else none) ∧
  (∀ w : Word, parseLiteral ('$' :: toHex w) = some w.toNat) ∧
  (∀ i : Instr, exportBinary i = toBinary (encode i) ∧ exportHex i = toHex (encode i)) ∧
  exportBinary (.sto 125) = "0000000001111101".toList ∧ exportHex (.sto 125) = "007D".toList

/-! ## State, reset and memory (spec/10_state.md, spec/20_memory.md) -/

/-- What RESET leaves, in every state and for every MEM_SIZE. All but `acc`, `pc` and the cells is the spec's decision D6. -/
def Obligations.ResetValues : Prop :=
  (∀ (s : State) (fuel : Nat), ∃ t, perform fuel .reset s = .ended .ok t ∧
    t.cfg = s.cfg ∧ t.acc = 0 ∧ t.pc = 0 ∧ (∀ a, t.cell a = 0) ∧ t.ir = none ∧ t.phase = .idle ∧ t.brTaken = false ∧
    t.maxPc = none ∧ t.instructionCount = 0 ∧ t.cycles = 0 ∧ t.branchCount = 0 ∧ t.fault = none ∧
    t.snapshot.accOld = none ∧ t.snapshot.aluResult = none ∧ t.snapshot.memRead = none ∧
    t.snapshot.branchTaken = none ∧ t.done = true) ∧
  perform 0 .reset State.reset = .ended .ok State.reset ∧ State.reset.memSize = 4096

/-- The invariant holds after reset, for every MEM_SIZE. -/
def Obligations.ResetMeetsInvariant : Prop := ∀ c : Config, (State.resetOf c).inv = true

/-- R33: a read in range gives the cell, one out of range the error with the caller's cause. -/
def Obligations.MemReadChecksBounds : Prop :=
  (∀ (s : State) (c : Cause) (a : Addr),
    (a.toNat < s.memSize → s.memRead c a = .ok (s.cell a)) ∧ (s.memSize ≤ a.toNat → s.memRead c a = .error ⟨c, a⟩)) ∧
  (∀ s : State, s.fault = none → s.phase = .idle → s.memSize ≤ s.pc.toNat →
    first s = .next { s with fault := some ⟨.fetchOutOfRange, s.pc⟩ }) ∧
  (∀ (s : State) (i : Instr), i.kind.isAddressKind = true → i.kind ≠ .sto → i.kind ≠ .brz → s.memSize ≤ i.address.toNat →
    exec i s = .next { s with fault := some ⟨.loadOutOfRange, i.address⟩ })

/-- R34: a write in range changes the one cell; out of range it is the error; the only instruction that writes is STO; LOAD's
values are reduced modulo 65536. -/
def Obligations.MemWriteChangesOneCell : Prop :=
  (∀ (s : State) (a : Addr) (v : Word), s.mem.wf = true → a.toNat < s.memSize →
    ∃ t, s.memWrite a v = .ok t ∧ t.cell a = v ∧ (∀ b, b ≠ a → t.cell b = s.cell b) ∧ t = { s with mem := t.mem }) ∧
  (∀ (s : State) (a : Addr) (v : Word), s.memSize ≤ a.toNat → s.memWrite a v = .error ⟨.storeOutOfRange, a⟩) ∧
  (∀ (i : Instr) (s t : State), i.kind ≠ .sto → exec i s = .next t → t.mem = s.mem) ∧
  (∀ (s : State) (a : Addr) (v : Int) (m : Option Addr), a.toNat < s.memSize →
    ∃ t, load [⟨a.toNat, v⟩] m s = .ended .ok t ∧ (t.cell a).toNat = v % 65536)

/-- Two canonical memories that read alike at every address are the same data. -/
def Obligations.CanonicalMemoriesAreEqualIfReadsAre : Prop :=
  ∀ m n : Memory, m.wf = true → n.wf = true → (∀ a, m.peek a = n.peek a) → m = n

/-- R44: the host reads exactly the cells of the memory; a negative or too high address fails. -/
def Obligations.HostReadIsBoundsChecked : Prop :=
  ∀ (s : State) (a : Int), s.hostRead a =
    if 0 ≤ a ∧ a < s.memSize then some (s.cell (BitVec.ofInt 12 a)) else none

/-- The debug listing of a cell: decimals are digits `0` to `9` only, without leading zeros. The byte order and the unpadded decimals
are the spec's decision D10 (log 16). -/
def Obligations.DebugRowSpellsTheCell : Prop :=
  (∀ v : Word, (debugRow v).binary = toBinary v ∧ parseNumber 10 decimalValue (debugRow v).unsigned = some v.toNat ∧
    (v ≠ 0 → (debugRow v).unsigned.head? ≠ some '0')) ∧
  (debugRow 0).unsigned = ['0'] ∧
  (∀ v : Word, (debugRow v).hexBytes.length = 5 ∧ (debugRow v).hexBytes[2]? = some ' ' ∧
    (debugRow v).hexBytes.eraseIdx 2 = toHex v) ∧
  (∀ v : Word, (v.toInt < 0 → ∃ t, (debugRow v).signed = '-' :: t ∧ t.head? ≠ some '0' ∧
      parseNumber 10 decimalValue t = some v.toInt.natAbs) ∧
    (0 ≤ v.toInt → (debugRow v).signed = (debugRow v).unsigned)) ∧
  debugRow 0x007D#16 =
    ⟨"0000000001111101".toList, "125".toList, "00 7D".toList, "125".toList⟩ ∧
  debugRow 0x8000#16 =
    ⟨"1000000000000000".toList, "32768".toList, "80 00".toList, "-32768".toList⟩

/-! ## The 13 instructions (spec/41_transfer.md to spec/45_nop.md) -/

/-- R100. -/
def Obligations.StoStoresTheAccumulator : Prop :=
  ∀ (a : Addr) (s : State),
    (encode (.sto a)).toNat = a.toNat ∧
    (a.toNat < s.memSize →
      exec (.sto a) s = .next { s with mem := s.mem.poke a.toNat s.acc, brTaken := false, snapshot := {} }) ∧
    (s.memSize ≤ a.toNat → exec (.sto a) s = .next { s with fault := some ⟨.storeOutOfRange, a⟩ }) ∧
    (s.mem.wf = true → (s.mem.poke a.toNat s.acc).peek a.toNat = s.acc) ∧
    (fetches s (.sto a) → a.toNat < s.memSize →
      step s = .next { retired s with mem := s.mem.poke a.toNat s.acc, snapshot := {} })

/-- R101. -/
def Obligations.LdaLoadsTheCell : Prop :=
  ∀ (a : Addr) (s : State),
    (encode (.lda a)).toNat = 4096 + a.toNat ∧
    (a.toNat < s.memSize →
      exec (.lda a) s = .next { s with acc := s.cell a, brTaken := false, snapshot := { memRead := some (s.cell a) } }) ∧
    (s.memSize ≤ a.toNat → exec (.lda a) s = .next { s with fault := some ⟨.loadOutOfRange, a⟩ }) ∧
    (fetches s (.lda a) → a.toNat < s.memSize →
      step s = .next { retired s with acc := s.cell a, snapshot := { memRead := some (s.cell a) } })

/-- R110: taken exactly when the accumulator is 0, whatever the target. -/
def Obligations.BrzBranchesOnZero : Prop :=
  ∀ (a : Addr) (s : State),
    (encode (.brz a)).toNat = 2 * 4096 + a.toNat ∧
    (s.acc = 0 →
      exec (.brz a) s = .next { s with
        pc := a, branchCount := s.branchCount + 1, brTaken := true, snapshot := { branchTaken := some true } }) ∧
    (s.acc ≠ 0 → exec (.brz a) s = .next { s with brTaken := false, snapshot := { branchTaken := some false } }) ∧
    (fetches s (.brz a) → s.acc = 0 →
      step s = .next { s with
        pc := a, ir := none, branchCount := s.branchCount + 1, brTaken := true,
        instructionCount := s.instructionCount + 1, cycles := s.cycles + 1, snapshot := { branchTaken := some true } }) ∧
    (fetches s (.brz a) → s.acc ≠ 0 →
      step s = .next { retired s with snapshot := { branchTaken := some false } })

/-- R121: the sum modulo 65536. -/
def Obligations.AddWrapsModulo65536 : Prop :=
  memoryOperandRule .add 3 fun x m => BitVec.ofNat 16 (x.toNat + m.toNat)

/-- R122: the accumulator is the minuend; the difference modulo 65536. -/
def Obligations.SubSubtractsTheCell : Prop :=
  memoryOperandRule .sub 4 fun x m => BitVec.ofInt 16 ((x.toNat : Int) - (m.toNat : Int))

/-- R123, R124, R125: bit by bit. -/
def Obligations.LogicalOperationsActBitByBit : Prop :=
  memoryOperandRule .or 5 (fun x m => BitVec.ofFnLE fun n : Fin 16 => x.getLsbD n || m.getLsbD n) ∧
  memoryOperandRule .and 6 (fun x m => BitVec.ofFnLE fun n : Fin 16 => x.getLsbD n && m.getLsbD n) ∧
  memoryOperandRule .xor 7 (fun x m => BitVec.ofFnLE fun n : Fin 16 => x.getLsbD n != m.getLsbD n)

/-- R140: the one's complement. -/
def Obligations.NotComplements : Prop :=
  accumulatorRule .not 8 fun x => BitVec.ofNat 16 (65535 - x.toNat)

/-- R141, R142: plus and minus one modulo 65536. -/
def Obligations.IncAndDecWrap : Prop :=
  accumulatorRule .inc 9 (fun x => BitVec.ofNat 16 (x.toNat + 1)) ∧
  accumulatorRule .dec 10 (fun x => BitVec.ofInt 16 ((x.toNat : Int) - 1))

/-- R143. -/
def Obligations.ZroClearsTheAccumulator : Prop := accumulatorRule .zro 11 fun _ => 0#16

/-- R150. -/
def Obligations.NopOnlyAdvances : Prop :=
  (encode .nop).toNat = 0xC000 ∧ (∀ w : Word, 0xC000 ≤ w.toNat → decode w = .nop) ∧
  ∀ s : State,
    exec .nop s = .next { s with brTaken := false, snapshot := {} } ∧
    (fetches s .nop → first s = .next { s with
      ir := some .nop, brTaken := false, phase := .firstPhaseDone, snapshot := {} }) ∧
    (fetches s .nop → step s = .next { retired s with snapshot := {} })

/-- R120: the function table of the ALU, in the integers. -/
def Obligations.AluTable : Prop :=
  ∀ a b : Word,
    (alu .add a b).toNat = (a.toNat + b.toNat) % 65536 ∧
    ((alu .sub a b).toNat : Int) = ((a.toNat : Int) - b.toNat) % 65536 ∧
    (∀ n, (alu .or a b).getLsbD n = (a.getLsbD n || b.getLsbD n)) ∧
    (∀ n, (alu .and a b).getLsbD n = (a.getLsbD n && b.getLsbD n)) ∧
    (∀ n, (alu .xor a b).getLsbD n = (a.getLsbD n ^^ b.getLsbD n)) ∧
    (alu .not a b).toNat = 65535 - a.toNat ∧
    (alu .inc a b).toNat = (a.toNat + 1) % 65536 ∧
    ((alu .dec a b).toNat : Int) = ((a.toNat : Int) - 1) % 65536 ∧
    alu .zro a b = 0

/-- The two's-complement reading wraps modulo 65536 as well (spec/43_alu_memory.md section 1). -/
def Obligations.SignedReadingWrapsAlike : Prop :=
  ∀ a b : Word,
    (alu .add a b).toInt = (a.toInt + b.toInt).bmod 65536 ∧ (alu .sub a b).toInt = (a.toInt - b.toInt).bmod 65536 ∧
    (alu .inc (alu .not a b) b).toInt = (-a.toInt).bmod 65536

/-! ## Frames -/

/-- What the twelve instructions other than STO leave alone: all of memory, every byte of it read through the cell that holds it;
the accumulator for BRZ and NOP; `pc` and `branch_count` for all but BRZ; the fault register for all but the memory reads;
and what only FIRST, SECOND, RESET and LOAD write. -/
def Obligations.NonStoringFrame : Prop :=
  ∀ (i : Instr) (s t : State), i.kind ≠ .sto → exec i s = .next t →
    t.mem = s.mem ∧ (∀ a, t.cell a = s.cell a) ∧ t.cfg = s.cfg ∧ t.ir = s.ir ∧ t.phase = s.phase ∧ t.maxPc = s.maxPc ∧
    t.instructionCount = s.instructionCount ∧ t.cycles = s.cycles ∧
    (i.kind = .brz ∨ i.kind = .nop → t.acc = s.acc) ∧
    (i.kind ≠ .brz → t.pc = s.pc ∧ t.branchCount = s.branchCount) ∧
    (i.kind.isAddressKind = false ∨ i.kind = .brz ∨ i.address.toNat < s.memSize → t.fault = s.fault)

/-- What STO leaves alone: every cell but the one its address names, and every register but the latch and the snapshot, or, out
of range, all but the fault register. -/
def Obligations.StoFrame : Prop :=
  ∀ (a : Addr) (s t : State), exec (.sto a) s = .next t →
    t.acc = s.acc ∧ t.pc = s.pc ∧ t.cfg = s.cfg ∧ t.ir = s.ir ∧ t.phase = s.phase ∧ t.maxPc = s.maxPc ∧
    t.instructionCount = s.instructionCount ∧ t.cycles = s.cycles ∧ t.branchCount = s.branchCount ∧
    (a.toNat < s.memSize → t.fault = s.fault) ∧
    (s.memSize ≤ a.toNat → t.mem = s.mem ∧ t.brTaken = s.brTaken ∧ t.snapshot = s.snapshot) ∧
    (s.mem.wf = true → ∀ b, b ≠ a → t.cell b = s.cell b)

/-! ## The step machine (spec/40_cycle.md) -/

/-- R81: FIRST, its checks in their order. -/
def Obligations.FirstFetchesDecodesExecutes : Prop :=
  ∀ s : State,
    (∀ r, s.fault = some r → first s = .fault (.halted r)) ∧
    (s.fault = none → s.phase = .firstPhaseDone → first s = .refused .stepSequenceError) ∧
    (s.fault = none → s.phase = .idle → s.memSize ≤ s.pc.toNat →
      first s = .next { s with fault := some ⟨.fetchOutOfRange, s.pc⟩ }) ∧
    (s.ready = true → ∃ t, exec (decode (s.cell s.pc)) { s with ir := some (decode (s.cell s.pc)) } = .next t ∧
      (t.fault = none → first s = .next { t with phase := .firstPhaseDone } ∧
        t.pc = (if takenBranch (decode (s.cell s.pc)) s then (decode (s.cell s.pc)).address else s.pc) ∧
        t.brTaken = takenBranch (decode (s.cell s.pc)) s) ∧
      (t.fault ≠ none → first s = .next t))

/-- R82: SECOND. -/
def Obligations.SecondCommits : Prop :=
  ∀ s : State,
    (∀ r, s.fault = some r → second s = .fault (.halted r)) ∧
    (s.fault = none → s.phase = .idle → second s = .refused .stepSequenceError) ∧
    (s.fault = none → s.phase = .firstPhaseDone → s.brTaken = true →
      second s = .next { s with
        ir := none, phase := .idle, instructionCount := s.instructionCount + 1, cycles := s.cycles + 1 }) ∧
    (s.fault = none → s.phase = .firstPhaseDone → s.brTaken = false →
      second s = .next { s with
        pc := BitVec.ofNat 12 ((s.pc.toNat + 1) % 4096), ir := none, phase := .idle,
        instructionCount := s.instructionCount + 1, cycles := s.cycles + 1 })

/-- R83: STEP is FIRST and, if that ended Ok, SECOND. -/
def Obligations.StepComposesBothPhases : Prop :=
  ∀ s : State,
    (s.fault = none → s.phase = .firstPhaseDone → step s = .refused .stepSequenceError) ∧
    (∀ t, first s = .next t → t.fault = none →
      step s = second t ∧ ∃ u, second t = .next u ∧ u.phase = .idle ∧ u.ir = none) ∧
    (∀ t, first s = .next t → t.fault ≠ none →
      step s = .next t ∧ t.pc = s.pc ∧ t.instructionCount = s.instructionCount ∧ t.cycles = s.cycles)

/-- A step at a ready state runs the decoded instruction: its execute step with `ir` written, and, unless that raised an error,
`pc` moved past the word (or left at the target of a taken branch), `ir` cleared and the two counters grown. -/
def Obligations.StepRunsTheDecodedInstruction : Prop :=
  ∀ (s t : State) (i : Instr), fetches s i → i.wellFormed = true → exec i { s with ir := some i } = .next t →
    step s =
      if t.fault = none then
        .next { t with
          pc := if t.brTaken then t.pc else t.pc + 1
          ir := none
          instructionCount := s.instructionCount + 1
          cycles := s.cycles + 1
          phase := .idle }
      else .next t

/-- Which command is legal in which state, and that a refused one changes nothing: the table of spec/40_cycle.md section 4, which the
spec marks as derived, with its decisions D5 and D16 on refused commands. -/
def Obligations.CommandLegality : Prop :=
  ∀ (s : State) (fuel : Nat),
    (s.fault = none → s.phase = .idle → perform fuel .second s = .ended .stepSequenceError s) ∧
    (s.fault = none → s.phase = .firstPhaseDone →
      perform fuel .first s = .ended .stepSequenceError s ∧ perform fuel .step s = .ended .stepSequenceError s ∧
      (s.done = true → perform fuel .run s = .ended .ok s) ∧
      (s.done = false → perform (fuel + 1) .run s = .ended .stepSequenceError s) ∧
      ∃ t, perform fuel .second s = .ended .ok t) ∧
    (s.fault = none → s.phase = .idle →
      ∀ c, c = .first ∨ c = .step → ∃ t, perform fuel c s = .ended .ok t ∨ perform fuel c s = .ended .memoryAddressError t) ∧
    (s.fault = none → s.phase = .idle →
      ∀ r t, perform fuel .run s = .ended r t → r = .ok ∨ r = .memoryAddressError) ∧
    (s.fault ≠ none → ∀ c, c = .first ∨ c = .second ∨ c = .step ∨ c = .run → perform fuel c s = .ended .halted s) ∧
    (∃ t, perform fuel .reset s = .ended .ok t ∧ t.fault = none) ∧
    (∀ image m, Image.distinct image = true → ∃ r t, perform fuel (.load image m) s = .ended r t ∧ t.fault = none)

/-- R84: `done`, and that no step depends on it: the limit register can be anything. The clause on 4095 follows from the comparison;
R84 marks it as derived. -/
def Obligations.DoneComparesAndDoesNotGate : Prop :=
  (∀ s : State, s.done = true ↔ s.maxPc = none ∨ ∃ m, s.maxPc = some m ∧ m.toNat < s.pc.toNat) ∧
  (∀ s : State, s.maxPc = some 4095 → s.done = false) ∧
  (∀ (s t : State) (m : Option Addr),
    (first s = .next t → first { s with maxPc := m } = .next { t with maxPc := m }) ∧
    (second s = .next t → second { s with maxPc := m } = .next { t with maxPc := m }) ∧
    (step s = .next t → step { s with maxPc := m } = .next { t with maxPc := m }))

/-- R85: the loop of RUN, one turn at a time; `fuel` only bounds how far the loop is followed. -/
def Obligations.RunLoopsStepUntilDone : Prop :=
  ∀ (s : State) (fuel : Nat), s.fault = none →
    (s.done = true → run fuel s = .ended .ok s) ∧
    (s.done = false → run 0 s = .running) ∧
    (∀ t, s.done = false → perform 0 .step s = .ended .ok t → run (fuel + 1) s = run fuel t) ∧
    (∀ r t, s.done = false → r ≠ .ok → perform 0 .step s = .ended r t → run (fuel + 1) s = .ended r t) ∧
    (∀ r t, run fuel s = .ended r t → r ≠ .ok →
      r = .memoryAddressError ∨ r = .stepSequenceError ∧ s.phase = .firstPhaseDone ∧ s.done = false)

/-- How `pc` moves over FIRST and over the whole instruction (the table of spec/40_cycle.md section 3, marked as derived). -/
def Obligations.PcAdvance : Prop :=
  ∀ (s t : State), s.fault = none → t.fault = none →
    (first s = .next t → t.pc = if takenBranch (decode (s.cell s.pc)) s then (decode (s.cell s.pc)).address else s.pc) ∧
    (step s = .next t → t.pc =
      if takenBranch (decode (s.cell s.pc)) s then (decode (s.cell s.pc)).address
      else BitVec.ofNat 12 ((s.pc.toNat + 1) % 4096))

/-- Which snapshot fields each kind fills: the table is the spec's decision D9 (log 13). -/
def Obligations.SnapshotTable : Prop :=
  ∀ (s t : State), s.fault = none → t.fault = none → first s = .next t →
    let i := decode (s.cell s.pc)
    let computes := i.kind ≠ .sto ∧ i.kind ≠ .lda ∧ i.kind ≠ .brz ∧ i.kind ≠ .nop
    let reads := i.kind.isAddressKind = true ∧ i.kind ≠ .sto ∧ i.kind ≠ .brz
    t.snapshot.accOld = (if computes then some s.acc else none) ∧
    t.snapshot.aluResult = (if computes then some t.acc else none) ∧
    t.snapshot.memRead = (if reads then some (s.cell i.address) else none) ∧
    t.snapshot.branchTaken = (if i.kind = .brz then some (decide (s.acc = 0)) else none)

/-! ## Errors and counters (spec/60_exceptions.md) -/

/-- The state after a MemoryAddressError (spec/60_exceptions.md section 2, the spec's decision D4; log 4). -/
def Obligations.MemoryAddressErrorIsPrecise : Prop :=
  ∀ (s t : State) (r : FaultRecord), s.fault = none → step s = .next t → t.fault = some r →
    (r.cause = .fetchOutOfRange ∧ r.address = s.pc ∧ s.memSize ≤ s.pc.toNat ∧ t = { s with fault := some r }) ∨
    (r.cause.isOf (decode (s.cell s.pc)) = true ∧ r.address = (decode (s.cell s.pc)).address ∧
      s.pc.toNat < s.memSize ∧ s.memSize ≤ r.address.toNat ∧
      t = { s with fault := some r, ir := some (decode (s.cell s.pc)) })

/-- With MEM_SIZE = 4096 no access of the core can fail: every STEP from Idle ends Ok (spec/20_memory.md section 1,
spec/60_exceptions.md section 2). -/
def Obligations.NoErrorWithFullMemory : Prop :=
  ∀ s : State, s.memSize = 4096 → s.fault = none → s.phase = .idle →
    ∃ t, step s = .next t ∧ t.fault = none ∧ t.phase = .idle ∧ t.ir = none

/-- What the counters count (spec/10_state.md section 4, spec/60_exceptions.md section 7; the amount 1 is the spec's decision D14). -/
def Obligations.CountersCountTheirEvents : Prop :=
  (∀ s t : State, first s = .next t →
    t.instructionCount = s.instructionCount ∧ t.cycles = s.cycles ∧
    t.branchCount = s.branchCount +
      if t.fault = none ∧ takenBranch (decode (s.cell s.pc)) s = true then 1 else 0) ∧
  (∀ s t : State, second s = .next t →
    t.instructionCount = s.instructionCount + 1 ∧ t.cycles = s.cycles + 1 ∧ t.branchCount = s.branchCount) ∧
  (∀ s t : State, s.fault = none → step s = .next t →
    t.instructionCount = s.instructionCount + (if t.fault = none then 1 else 0) ∧
    t.cycles = s.cycles + (if t.fault = none then 1 else 0))

/-! ## Whole-machine rules -/

/-- Every STEP keeps the invariant, from every state that meets it. -/
def Obligations.StepKeepsInvariant : Prop :=
  ∀ s t : State, s.inv = true → step s = .next t → t.inv = true

/-- Every command keeps the invariant, a RUN followed for any number of steps and any LOAD among them. -/
def Obligations.CommandsKeepInvariant : Prop :=
  ∀ (fuel : Nat) (c : Command) (s t : State) (r : Reply), s.inv = true → perform fuel c s = .ended r t → t.inv = true

/-- Only RESET and LOAD write the limit register, and nothing changes MEM_SIZE. -/
def Obligations.LimitAndSizeAreFixedByStepping : Prop :=
  (∀ (fuel : Nat) (c : Command) (s t : State) (r : Reply), perform fuel c s = .ended r t → t.memSize = s.memSize) ∧
  (∀ (fuel : Nat) (c : Command) (s t : State) (r : Reply),
    c = .first ∨ c = .second ∨ c = .step ∨ c = .run → perform fuel c s = .ended r t → t.maxPc = s.maxPc)

/-- A cell changes over a step only where the instruction is a STO to it, and then to the accumulator. -/
def Obligations.OnlyStoChangesCells : Prop :=
  ∀ (s t : State) (a : Addr), s.mem.wf = true → step s = .next t → t.cell a ≠ s.cell a →
    decode (s.cell s.pc) = .sto a ∧ t.cell a = s.acc

/-- A store is seen by the fetches after it (spec/20_memory.md section 4): the cell holds the accumulator, and where it is the next
instruction's cell, the stored word is the instruction the core fetches next. -/
def Obligations.StoredWordIsFetchedNext : Prop :=
  ∀ (s : State) (a : Addr), s.mem.wf = true → fetches s (.sto a) → a.toNat < s.memSize →
    ∃ t, step s = .next t ∧ t.cell a = s.acc ∧ (a = s.pc + 1 → fetches t (decode s.acc))

/-! ## Reset, load and runs (spec/70_reset_and_hazards.md) -/

/-- LOAD, in every state. The case of an out-of-range write is the spec's decision D18, the refusal of an image that writes one
cell twice its decision D12. That this refusal comes ahead of the bounds check, for an image with both defects, and that it
covers two writes of one value, are the model's choice (log 10, DESIGN CHOICE). -/
def Obligations.LoadPlacesTheImage : Prop :=
  ∀ (image : Image) (m : Option Addr) (s : State) (fuel : Nat),
    (Image.wellFormed s.memSize image = true →
      ∃ t, perform fuel (.load image m) s = .ended .ok t ∧ t = { State.resetOf s.cfg with mem := t.mem, maxPc := m } ∧
        (∀ w ∈ image, ∃ v, t.hostRead w.address = some v ∧ v.toNat = w.value % 65536) ∧
        (∀ a : Addr, (∀ w ∈ image, w.address ≠ a.toNat) → t.cell a = 0) ∧ (t.done = true ↔ m = none)) ∧
    (Image.distinct image = true → Image.inRange s.memSize image = false →
      perform fuel (.load image m) s = .ended .memoryAddressError (State.resetOf s.cfg)) ∧
    (Image.distinct image = false → perform fuel (.load image m) s = .refused .loadOrderOpen)

/-- The order of the writes of an image that LOAD accepts does not matter. -/
def Obligations.LoadIgnoresWriteOrder : Prop :=
  ∀ (image other : Image) (m : Option Addr) (s : State), image.Perm other → load image m s = load other m s

/-- A program loaded from address 0 is what the fetch decodes. -/
def Obligations.LoadedProgramIsFetched : Prop :=
  ∀ (program : List Instr) (m : Option Addr) (s : State), program.length ≤ s.memSize →
    ∃ t, load (programImage 0 program) m s = .ended .ok t ∧
      ∀ k : Nat, ∀ h : k < program.length, decode (t.cell (BitVec.ofNat 12 k)) = program[k]

/-- R196: the state in which a RUN that was issued in Idle ends Ok. -/
def Obligations.FinalStateOfARun : Prop :=
  ∀ (fuel : Nat) (s t : State), s.phase = .idle → s.ir = none → run fuel s = .ended .ok t →
    t.phase = .idle ∧ t.ir = none ∧ t.fault = none ∧ t.maxPc = s.maxPc ∧
    ∀ m, t.maxPc = some m → m.toNat < t.pc.toNat

/-- Following a RUN further does not change how it ended. -/
def Obligations.RunEndsOneWay : Prop :=
  ∀ (fuel more : Nat) (s t : State) (r : Reply), run fuel s = .ended r t → run (fuel + more) s = .ended r t

/-- A taken branch to itself runs for ever (spec/70_reset_and_hazards.md section 2). -/
def Obligations.SelfBranchRunsForever : Prop :=
  ∀ s : State, fetches s (.brz s.pc) → s.acc = 0 → s.done = false → RunsForever s

/-- With MEM_SIZE = 4096 and `max_pc` = 4095 no RUN ends (spec/70_reset_and_hazards.md section 2). -/
def Obligations.FullProgramRunsForever : Prop :=
  ∀ s : State, s.memSize = 4096 → s.maxPc = some 4095 → s.fault = none → s.phase = .idle → RunsForever s

/-! ## The assembler (spec/30_encoding.md section 5) and the micro-program table (spec/46_microprogram.md) -/

/-- R70: the k-th instruction line of a text that assembles is placed at address k, encoded with its operand's value; and
`max_pc` is the last instruction's address, or EMPTY. -/
def Obligations.InstructionLinesArePlacedInOrder : Prop :=
  ∀ (text : Text) (ls : List Line) (p : Assembled), parseLines 1 (splitLines text) = .ok ls → assemble text = .ok p →
    (p.maxPc = if instructionsOf ls = [] then none else some ((instructionsOf ls).length - 1)) ∧
    ∀ (k : Nat) (kind : Kind) (o : Option Operand), (instructionsOf ls)[k]? = some (kind, o) →
      ∃ n, operandValue (bindings 0 ls) o = .ok n ∧ ⟨k, (encodeKind kind n).toNat⟩ ∈ p.image

/-- A syntax error names the first line that matches no form, counted from 1 (spec/30_encoding.md section 5). That its text is the line
as it stands, comment and blanks included (log 15, DESIGN CHOICE), and that it comes before every error about names or cells
(log 15, DEDUCED) are the model's choice, not the spec's words. -/
def Obligations.SyntaxErrorNamesTheFirstBadLine : Prop :=
  ∀ (text : Text) (n : Nat) (raw : Text),
    assemble text = .error (.syntaxError n raw) ↔
      1 ≤ n ∧ (splitLines text)[n - 1]? = some raw ∧ parseLine raw = none ∧
      ∀ j l, j < n - 1 → (splitLines text)[j]? = some l → parseLine l ≠ none

/-- `load_program` of a text that assembles to an image in range: every write is in memory and `max_pc` is the assembled one, none
of it lost in the 12-bit register (spec/70_reset_and_hazards.md section 1, spec/30_encoding.md section 5). -/
def Obligations.AssembledTextIsLoadedWhole : Prop :=
  ∀ (text : Text) (p : Assembled) (s : State), assemble text = .ok p → Image.inRange s.memSize p.image = true →
    ∃ t, loadProgram text s = .ok (.ended .ok t) ∧ t.maxPc.map BitVec.toNat = p.maxPc ∧
      ∀ w ∈ p.image, ∃ v, t.hostRead w.address = some v ∧ v.toNat = w.value % 65536

/-- Worked texts: the source's examples, the vectors of spec/95_test_vectors.md and the worked assembly of spec/30_encoding.md. -/
def Obligations.WorkedTextsAssemble : Prop :=
  assemble ":0x400:20\nLDA 0x400".toList = .ok ⟨[⟨1024, 0x0014⟩, ⟨0, 0x1400⟩], some 0⟩ ∧
  assemble "INC\nINC\nSTO 1024\nADD 1024\nSTO 1025\nINC\nLDA 4095".toList =
    .ok ⟨[⟨0, 0x9000⟩, ⟨1, 0x9000⟩, ⟨2, 0x0400⟩, ⟨3, 0x3400⟩, ⟨4, 0x0401⟩, ⟨5, 0x9000⟩, ⟨6, 0x1FFF⟩], some 6⟩ ∧
  assemble "Lda $14".toList = .ok ⟨[⟨0, 0x1014⟩], some 0⟩ ∧
  assemble "INC\nLDA\nDEC".toList = .error (.syntaxError 2 "LDA".toList) ∧
  assemble "ZRO\nBRZ end\nINC\nend:".toList = .ok ⟨[⟨0, 0xB000⟩, ⟨1, 0x2003⟩, ⟨2, 0x9000⟩], some 2⟩ ∧
  assemble ":7:65537".toList = .ok ⟨[⟨7, 1⟩], none⟩ ∧
  assemble "LDA 4096".toList = .ok ⟨[⟨0, 0x1000⟩], some 0⟩ ∧
  assemble "CNT = $14\n:20:3\ntop:\nlda CNT\nDEC\nsto 0x14".toList =
    .ok ⟨[⟨20, 3⟩, ⟨0, 0x1014⟩, ⟨1, 0xA000⟩, ⟨2, 0x0014⟩], some 2⟩

/-- R156: the two read functions of the micro-program table. -/
def Obligations.MicroProgramReads : Prop :=
  signalNames = ["write[ram]", "inc[pc]", "set[pc]", "addr=ir", "set[ir]", "set[accu]", "aluinc", "alumode", "alu3", "alu2",
    "alu1", "alu0"] ∧
  (∀ (k : Kind) (p : Nat), (getValues k)[p]? = if p < 12 then some ((Config.mpt k).getLsbD (11 - p)) else none) ∧
  (∀ (k : Kind) (p : Nat) (name : String), signalNames[p]? = some name →
    ∃ b, (getValues k)[p]? = some b ∧ getSignal k name = .ok b) ∧
  (∀ (k : Kind) (name : String), name ∉ signalNames → getSignal k name = .error (.unknownSignal name)) ∧
  (∀ w : Word, 0xC000 ≤ w.toNat → getValues (decode w).kind = getValues .nop)
end

