-- ==== Sys2Proof/Laws/Memory.lean ====
section
/-! SUPPORT. The laws of the cell array: reading after writing, and that writing keeps the canonical form. -/

namespace Sys2Proof.Machine.Memory

@[simp] theorem peek_nil (a : Nat) : Memory.peek [] a = 0#16 := rfl

@[simp] theorem wfFrom_nil (lo : Nat) : Memory.wfFrom lo [] = true := rfl

theorem wfFrom_cons {lo b : Nat} {v : Word} {rest : Memory} :
    Memory.wfFrom lo ((b, v) :: rest) = true ↔ lo ≤ b ∧ v ≠ 0#16 ∧ Memory.wfFrom (b + 1) rest = true := by
  simp [Memory.wfFrom, and_assoc]

theorem below_cons {n b : Nat} {v : Word} {rest : Memory} :
    Memory.below n ((b, v) :: rest) = true ↔ b < n ∧ Memory.below n rest = true := by
  simp [Memory.below]

theorem wfFrom_mono {lo lo' : Nat} {m : Memory} (hle : lo' ≤ lo) (h : Memory.wfFrom lo m = true) :
    Memory.wfFrom lo' m = true := by
  cases m with
  | nil => rfl
  | cons c rest =>
    obtain ⟨b, v⟩ := c
    rw [wfFrom_cons] at h ⊢
    exact ⟨by omega, h.2⟩

/-- A canonical memory reads 0 below its first listed cell. -/
theorem peek_of_lt {lo a : Nat} {m : Memory} (h : Memory.wfFrom lo m = true) (ha : a < lo) : Memory.peek m a = 0#16 := by
  cases m with
  | nil => rfl
  | cons c rest =>
    obtain ⟨b, v⟩ := c
    have hb := (wfFrom_cons.1 h).1
    simp [Memory.peek, show a ≠ b by omega, show a < b by omega]

/-- Writing a cell at or above `lo` keeps the canonical form from `lo` on. -/
theorem wfFrom_poke {lo a : Nat} {m : Memory} {v : Word} (h : Memory.wfFrom lo m = true) (ha : lo ≤ a) :
    Memory.wfFrom lo (Memory.poke m a v) = true := by
  induction m generalizing lo with
  | nil => by_cases hv : v = 0#16 <;> simp [Memory.poke, hv, Memory.wfFrom, ha]
  | cons c rest ih =>
    obtain ⟨b, u⟩ := c
    obtain ⟨hb, hu, hr⟩ := wfFrom_cons.1 h
    unfold Memory.poke
    split
    · split
      · exact h
      · rename_i hlt hv
        exact wfFrom_cons.2 ⟨ha, hv, wfFrom_cons.2 ⟨by omega, hu, hr⟩⟩
    · split
      · subst_vars
        split
        · exact wfFrom_mono (by omega) hr
        · rename_i hv
          exact wfFrom_cons.2 ⟨ha, hv, hr⟩
      · exact wfFrom_cons.2 ⟨hb, hu, ih hr (by omega)⟩

/-- Writing a cell keeps the canonical form. -/
theorem wf_poke {m : Memory} (a : Nat) (v : Word) (h : Memory.wf m = true) : Memory.wf (Memory.poke m a v) = true :=
  wfFrom_poke h (Nat.zero_le a)

/-- Writing a cell below `n` lists no cell at or above `n`. -/
theorem below_poke {n a : Nat} {m : Memory} (v : Word) (h : Memory.below n m = true) (ha : a < n) :
    Memory.below n (Memory.poke m a v) = true := by
  induction m with
  | nil => by_cases hv : v = 0#16 <;> simp [Memory.poke, hv, Memory.below, ha]
  | cons c rest ih =>
    obtain ⟨b, u⟩ := c
    obtain ⟨hb, hr⟩ := below_cons.1 h
    unfold Memory.poke
    split
    · split
      · exact h
      · exact below_cons.2 ⟨ha, h⟩
    · split
      · split
        · exact hr
        · exact below_cons.2 ⟨ha, hr⟩
      · exact below_cons.2 ⟨hb, ih hr⟩

/-- Reading the cell just written, from `lo` on. -/
theorem peek_poke_same_from {lo a : Nat} {m : Memory} (v : Word) (h : Memory.wfFrom lo m = true) :
    Memory.peek (Memory.poke m a v) a = v := by
  induction m generalizing lo with
  | nil => by_cases hv : v = 0#16 <;> simp [Memory.poke, Memory.peek, hv]
  | cons c rest ih =>
    obtain ⟨b, u⟩ := c
    obtain ⟨hb, hu, hr⟩ := wfFrom_cons.1 h
    unfold Memory.poke
    split
    · rename_i hlt
      split
      · simp_all [Memory.peek, show a ≠ b by omega]
      · simp [Memory.peek]
    · split
      · subst_vars
        split
        · simp_all [peek_of_lt hr (Nat.lt_succ_self b)]
        · simp [Memory.peek]
      · rename_i h1 h2
        simp [Memory.peek, h1, h2, ih hr]

/-- Reading another cell than the one written, from `lo` on. -/
theorem peek_poke_other_from {lo a b : Nat} {m : Memory} (v : Word) (h : Memory.wfFrom lo m = true) (hab : b ≠ a) :
    Memory.peek (Memory.poke m a v) b = Memory.peek m b := by
  induction m generalizing lo with
  | nil =>
    by_cases hv : v = 0#16
    · simp [Memory.poke, hv]
    · simp [Memory.poke, Memory.peek, hv, hab]
  | cons c rest ih =>
    obtain ⟨x, u⟩ := c
    obtain ⟨hb, hu, hr⟩ := wfFrom_cons.1 h
    unfold Memory.poke
    split
    · rename_i hlt
      split
      · rfl
      · by_cases hba : b < a
        · simp [Memory.peek, hab, hba, show b ≠ x by omega, show b < x by omega]
        · simp [Memory.peek, hab, hba]
    · split
      · subst_vars
        split
        · by_cases hbx : b < x
          · simp [Memory.peek, hab, hbx, peek_of_lt hr (show b < x + 1 by omega)]
          · simp [Memory.peek, hab, hbx]
        · simp [Memory.peek, hab]
      · simp only [Memory.peek, ih hr]

/-- Reading the cell just written. -/
theorem peek_poke_same {m : Memory} (a : Nat) (v : Word) (h : Memory.wf m = true) :
    Memory.peek (Memory.poke m a v) a = v := peek_poke_same_from v h

/-- Reading another cell than the one written. -/
theorem peek_poke_other {m : Memory} {a b : Nat} (v : Word) (h : Memory.wf m = true) (hab : b ≠ a) :
    Memory.peek (Memory.poke m a v) b = Memory.peek m b := peek_poke_other_from v h hab

/-- Writing an image keeps the canonical form. -/
theorem wf_writeImage {m : Memory} (image : Image) (h : Memory.wf m = true) : Memory.wf (writeImage image m) = true := by
  induction image generalizing m with
  | nil => exact h
  | cons w rest ih => exact ih (wf_poke _ _ h)

/-- The memory of the reset state is canonical. -/
theorem wf_resetOf (c : Config) : Memory.wf (State.resetOf c).mem = true := rfl

end Sys2Proof.Machine.Memory
end

