-- ==== Sys2Proof/Laws/State.lean ====
section
/-! SUPPORT. What each update of the state does to each field: one lemma a field, true by definition, so that no proof unfolds an
update. -/

namespace Sys2Proof.Machine

@[simp] theorem State.raise_cfg (s : State) (r : FaultRecord) : (s.raise r).cfg = s.cfg := rfl
@[simp] theorem State.raise_acc (s : State) (r : FaultRecord) : (s.raise r).acc = s.acc := rfl
@[simp] theorem State.raise_pc (s : State) (r : FaultRecord) : (s.raise r).pc = s.pc := rfl
@[simp] theorem State.raise_mem (s : State) (r : FaultRecord) : (s.raise r).mem = s.mem := rfl
@[simp] theorem State.raise_ir (s : State) (r : FaultRecord) : (s.raise r).ir = s.ir := rfl
@[simp] theorem State.raise_phase (s : State) (r : FaultRecord) : (s.raise r).phase = s.phase := rfl
@[simp] theorem State.raise_brTaken (s : State) (r : FaultRecord) : (s.raise r).brTaken = s.brTaken := rfl
@[simp] theorem State.raise_maxPc (s : State) (r : FaultRecord) : (s.raise r).maxPc = s.maxPc := rfl
@[simp] theorem State.raise_instructionCount (s : State) (r : FaultRecord) : (s.raise r).instructionCount = s.instructionCount := rfl
@[simp] theorem State.raise_cycles (s : State) (r : FaultRecord) : (s.raise r).cycles = s.cycles := rfl
@[simp] theorem State.raise_branchCount (s : State) (r : FaultRecord) : (s.raise r).branchCount = s.branchCount := rfl
@[simp] theorem State.raise_fault (s : State) (r : FaultRecord) : (s.raise r).fault = some r := rfl
@[simp] theorem State.raise_snapshot (s : State) (r : FaultRecord) : (s.raise r).snapshot = s.snapshot := rfl

@[simp] theorem State.setAcc_cfg (s : State) (v : Word) : (s.setAcc v).cfg = s.cfg := rfl
@[simp] theorem State.setAcc_acc (s : State) (v : Word) : (s.setAcc v).acc = v := rfl
@[simp] theorem State.setAcc_pc (s : State) (v : Word) : (s.setAcc v).pc = s.pc := rfl
@[simp] theorem State.setAcc_mem (s : State) (v : Word) : (s.setAcc v).mem = s.mem := rfl
@[simp] theorem State.setAcc_ir (s : State) (v : Word) : (s.setAcc v).ir = s.ir := rfl
@[simp] theorem State.setAcc_phase (s : State) (v : Word) : (s.setAcc v).phase = s.phase := rfl
@[simp] theorem State.setAcc_brTaken (s : State) (v : Word) : (s.setAcc v).brTaken = s.brTaken := rfl
@[simp] theorem State.setAcc_maxPc (s : State) (v : Word) : (s.setAcc v).maxPc = s.maxPc := rfl
@[simp] theorem State.setAcc_instructionCount (s : State) (v : Word) : (s.setAcc v).instructionCount = s.instructionCount := rfl
@[simp] theorem State.setAcc_cycles (s : State) (v : Word) : (s.setAcc v).cycles = s.cycles := rfl
@[simp] theorem State.setAcc_branchCount (s : State) (v : Word) : (s.setAcc v).branchCount = s.branchCount := rfl
@[simp] theorem State.setAcc_fault (s : State) (v : Word) : (s.setAcc v).fault = s.fault := rfl
@[simp] theorem State.setAcc_snapshot (s : State) (v : Word) : (s.setAcc v).snapshot = s.snapshot := rfl

@[simp] theorem State.takeBranch_cfg (s : State) (a : Addr) : (s.takeBranch a).cfg = s.cfg := rfl
@[simp] theorem State.takeBranch_acc (s : State) (a : Addr) : (s.takeBranch a).acc = s.acc := rfl
@[simp] theorem State.takeBranch_pc (s : State) (a : Addr) : (s.takeBranch a).pc = a := rfl
@[simp] theorem State.takeBranch_mem (s : State) (a : Addr) : (s.takeBranch a).mem = s.mem := rfl
@[simp] theorem State.takeBranch_ir (s : State) (a : Addr) : (s.takeBranch a).ir = s.ir := rfl
@[simp] theorem State.takeBranch_phase (s : State) (a : Addr) : (s.takeBranch a).phase = s.phase := rfl
@[simp] theorem State.takeBranch_brTaken (s : State) (a : Addr) : (s.takeBranch a).brTaken = s.brTaken := rfl
@[simp] theorem State.takeBranch_maxPc (s : State) (a : Addr) : (s.takeBranch a).maxPc = s.maxPc := rfl
@[simp] theorem State.takeBranch_instructionCount (s : State) (a : Addr) : (s.takeBranch a).instructionCount = s.instructionCount := rfl
@[simp] theorem State.takeBranch_cycles (s : State) (a : Addr) : (s.takeBranch a).cycles = s.cycles := rfl
@[simp] theorem State.takeBranch_branchCount (s : State) (a : Addr) : (s.takeBranch a).branchCount = s.branchCount + 1 := rfl
@[simp] theorem State.takeBranch_fault (s : State) (a : Addr) : (s.takeBranch a).fault = s.fault := rfl
@[simp] theorem State.takeBranch_snapshot (s : State) (a : Addr) : (s.takeBranch a).snapshot = s.snapshot := rfl

@[simp] theorem State.conclude_cfg (s : State) (b : Bool) (x : Snapshot) : (s.conclude b x).cfg = s.cfg := rfl
@[simp] theorem State.conclude_acc (s : State) (b : Bool) (x : Snapshot) : (s.conclude b x).acc = s.acc := rfl
@[simp] theorem State.conclude_pc (s : State) (b : Bool) (x : Snapshot) : (s.conclude b x).pc = s.pc := rfl
@[simp] theorem State.conclude_mem (s : State) (b : Bool) (x : Snapshot) : (s.conclude b x).mem = s.mem := rfl
@[simp] theorem State.conclude_ir (s : State) (b : Bool) (x : Snapshot) : (s.conclude b x).ir = s.ir := rfl
@[simp] theorem State.conclude_phase (s : State) (b : Bool) (x : Snapshot) : (s.conclude b x).phase = s.phase := rfl
@[simp] theorem State.conclude_brTaken (s : State) (b : Bool) (x : Snapshot) : (s.conclude b x).brTaken = b := rfl
@[simp] theorem State.conclude_maxPc (s : State) (b : Bool) (x : Snapshot) : (s.conclude b x).maxPc = s.maxPc := rfl
@[simp] theorem State.conclude_instructionCount (s : State) (b : Bool) (x : Snapshot) : (s.conclude b x).instructionCount = s.instructionCount := rfl
@[simp] theorem State.conclude_cycles (s : State) (b : Bool) (x : Snapshot) : (s.conclude b x).cycles = s.cycles := rfl
@[simp] theorem State.conclude_branchCount (s : State) (b : Bool) (x : Snapshot) : (s.conclude b x).branchCount = s.branchCount := rfl
@[simp] theorem State.conclude_fault (s : State) (b : Bool) (x : Snapshot) : (s.conclude b x).fault = s.fault := rfl
@[simp] theorem State.conclude_snapshot (s : State) (b : Bool) (x : Snapshot) : (s.conclude b x).snapshot = x := rfl

@[simp] theorem commit_cfg (s : State) : (commit s).cfg = s.cfg := rfl
@[simp] theorem commit_acc (s : State) : (commit s).acc = s.acc := rfl
@[simp] theorem commit_pc (s : State) : (commit s).pc = if s.brTaken then s.pc else s.pc + 1 := rfl
@[simp] theorem commit_mem (s : State) : (commit s).mem = s.mem := rfl
@[simp] theorem commit_ir (s : State) : (commit s).ir = none := rfl
@[simp] theorem commit_phase (s : State) : (commit s).phase = .idle := rfl
@[simp] theorem commit_brTaken (s : State) : (commit s).brTaken = s.brTaken := rfl
@[simp] theorem commit_maxPc (s : State) : (commit s).maxPc = s.maxPc := rfl
@[simp] theorem commit_instructionCount (s : State) : (commit s).instructionCount = s.instructionCount + 1 := rfl
@[simp] theorem commit_cycles (s : State) : (commit s).cycles = s.cycles + 1 := rfl
@[simp] theorem commit_branchCount (s : State) : (commit s).branchCount = s.branchCount := rfl
@[simp] theorem commit_fault (s : State) : (commit s).fault = s.fault := rfl
@[simp] theorem commit_snapshot (s : State) : (commit s).snapshot = s.snapshot := rfl

@[simp] theorem State.resetOf_cfg (c : Config) : (State.resetOf c).cfg = c := rfl
@[simp] theorem State.resetOf_acc (c : Config) : (State.resetOf c).acc = 0 := rfl
@[simp] theorem State.resetOf_pc (c : Config) : (State.resetOf c).pc = 0 := rfl
@[simp] theorem State.resetOf_mem (c : Config) : (State.resetOf c).mem = [] := rfl
@[simp] theorem State.resetOf_ir (c : Config) : (State.resetOf c).ir = none := rfl
@[simp] theorem State.resetOf_phase (c : Config) : (State.resetOf c).phase = .idle := rfl
@[simp] theorem State.resetOf_brTaken (c : Config) : (State.resetOf c).brTaken = false := rfl
@[simp] theorem State.resetOf_maxPc (c : Config) : (State.resetOf c).maxPc = none := rfl
@[simp] theorem State.resetOf_instructionCount (c : Config) : (State.resetOf c).instructionCount = 0 := rfl
@[simp] theorem State.resetOf_cycles (c : Config) : (State.resetOf c).cycles = 0 := rfl
@[simp] theorem State.resetOf_branchCount (c : Config) : (State.resetOf c).branchCount = 0 := rfl
@[simp] theorem State.resetOf_fault (c : Config) : (State.resetOf c).fault = none := rfl
@[simp] theorem State.resetOf_snapshot (c : Config) : (State.resetOf c).snapshot = {} := rfl

@[simp] theorem loadedState_cfg (image : Image) (m : Option Addr) (s : State) :
    (loadedState image m s).cfg = s.cfg := rfl
@[simp] theorem loadedState_acc (image : Image) (m : Option Addr) (s : State) :
    (loadedState image m s).acc = 0 := rfl
@[simp] theorem loadedState_pc (image : Image) (m : Option Addr) (s : State) :
    (loadedState image m s).pc = 0 := rfl
@[simp] theorem loadedState_mem (image : Image) (m : Option Addr) (s : State) :
    (loadedState image m s).mem = writeImage image [] := rfl
@[simp] theorem loadedState_ir (image : Image) (m : Option Addr) (s : State) :
    (loadedState image m s).ir = none := rfl
@[simp] theorem loadedState_phase (image : Image) (m : Option Addr) (s : State) :
    (loadedState image m s).phase = .idle := rfl
@[simp] theorem loadedState_brTaken (image : Image) (m : Option Addr) (s : State) :
    (loadedState image m s).brTaken = false := rfl
@[simp] theorem loadedState_maxPc (image : Image) (m : Option Addr) (s : State) :
    (loadedState image m s).maxPc = m := rfl
@[simp] theorem loadedState_instructionCount (image : Image) (m : Option Addr) (s : State) :
    (loadedState image m s).instructionCount = 0 := rfl
@[simp] theorem loadedState_cycles (image : Image) (m : Option Addr) (s : State) :
    (loadedState image m s).cycles = 0 := rfl
@[simp] theorem loadedState_branchCount (image : Image) (m : Option Addr) (s : State) :
    (loadedState image m s).branchCount = 0 := rfl
@[simp] theorem loadedState_fault (image : Image) (m : Option Addr) (s : State) :
    (loadedState image m s).fault = none := rfl
@[simp] theorem loadedState_snapshot (image : Image) (m : Option Addr) (s : State) :
    (loadedState image m s).snapshot = {} := rfl

@[simp] theorem resetState_eq (s : State) : resetState s = State.resetOf s.cfg := rfl

theorem State.memSize_eq (s : State) : s.memSize = s.cfg.memSize := rfl

@[simp] theorem State.withFetchWord_cfg (s : State) (n w : Nat) : (s.withFetchWord n w).cfg = s.cfg := rfl
@[simp] theorem State.withFetchWord_acc (s : State) (n w : Nat) : (s.withFetchWord n w).acc = s.acc := rfl
@[simp] theorem State.withFetchWord_pc (s : State) (n w : Nat) : (s.withFetchWord n w).pc = s.pc := rfl
@[simp] theorem State.withFetchWord_ir (s : State) (n w : Nat) : (s.withFetchWord n w).ir = s.ir := rfl
@[simp] theorem State.withFetchWord_brTaken (s : State) (n w : Nat) : (s.withFetchWord n w).brTaken = s.brTaken := rfl
@[simp] theorem State.withFetchWord_maxPc (s : State) (n w : Nat) : (s.withFetchWord n w).maxPc = s.maxPc := rfl
@[simp] theorem State.withFetchWord_instructionCount (s : State) (n w : Nat) : (s.withFetchWord n w).instructionCount = s.instructionCount := rfl
@[simp] theorem State.withFetchWord_cycles (s : State) (n w : Nat) : (s.withFetchWord n w).cycles = s.cycles := rfl
@[simp] theorem State.withFetchWord_branchCount (s : State) (n w : Nat) : (s.withFetchWord n w).branchCount = s.branchCount := rfl
@[simp] theorem State.withFetchWord_snapshot (s : State) (n w : Nat) : (s.withFetchWord n w).snapshot = s.snapshot := rfl
@[simp] theorem State.withFetchWord_phase (s : State) (n w : Nat) : (s.withFetchWord n w).phase = .idle := rfl
@[simp] theorem State.withFetchWord_fault (s : State) (n w : Nat) : (s.withFetchWord n w).fault = none := rfl

end Sys2Proof.Machine
end

