-- ==== Sys2Proof/Laws/Ops.lean ====
section
/-! SUPPORT. One lemma for each shared operation of the machine that says what it can do. -/

namespace Sys2Proof.Machine

theorem State.inRange_iff (s : State) (a : Addr) : s.inRange a = true ↔ a.toNat < s.memSize := by
  simp [State.inRange]

theorem State.memRead_ok {s : State} {c : Cause} {a : Addr} (h : a.toNat < s.memSize) :
    s.memRead c a = .ok (s.cell a) := by simp [State.memRead, State.inRange, h]

theorem State.memRead_error {s : State} {c : Cause} {a : Addr} (h : s.memSize ≤ a.toNat) :
    s.memRead c a = .error ⟨c, a⟩ := by simp [State.memRead, State.inRange, Nat.not_lt.2 h]

theorem State.memWrite_ok {s : State} {a : Addr} {v : Word} (h : a.toNat < s.memSize) :
    s.memWrite a v = .ok { s with mem := s.mem.poke a.toNat v } := by simp [State.memWrite, State.inRange, h]

theorem State.memWrite_error {s : State} {a : Addr} {v : Word} (h : s.memSize ≤ a.toNat) :
    s.memWrite a v = .error ⟨.storeOutOfRange, a⟩ := by simp [State.memWrite, State.inRange, Nat.not_lt.2 h]

/-- The operand form answers a next state: the continuation's where the address names a cell, the fault's elsewhere. -/
theorem withOperand_eq (a : Addr) (s : State) (k : Word → State) :
    withOperand a s k =
      .next (if a.toNat < s.memSize then k (s.cell a) else s.raise ⟨.loadOutOfRange, a⟩) := by
  by_cases h : a.toNat < s.memSize
  · simp [withOperand, State.memRead_ok h, h]
  · simp [withOperand, State.memRead_error (Nat.not_lt.1 h), h]

/-- STO answers a next state: the store's where the address names a cell, the fault's elsewhere. -/
theorem execSto_eq (a : Addr) (s : State) :
    execSto a s =
      .next (if a.toNat < s.memSize then State.conclude { s with mem := s.mem.poke a.toNat s.acc } false {}
        else s.raise ⟨.storeOutOfRange, a⟩) := by
  by_cases h : a.toNat < s.memSize
  · simp [execSto, State.memWrite_ok h, h]
  · simp [execSto, State.memWrite_error (Nat.not_lt.1 h), h]

end Sys2Proof.Machine
end

