-- ==== Sys2Proof/Laws/Exec.lean ====
section
/-! SUPPORT. What the execute step can do: every instruction answers a next state, and what it leaves alone. -/

namespace Sys2Proof.Machine

/-- What an execute step never touches (spec/40_cycle.md R81, R86): the parts only FIRST, SECOND, RESET and LOAD write. -/
structure ExecFrame (s t : State) : Prop where
  cfg : t.cfg = s.cfg
  ir : t.ir = s.ir
  phase : t.phase = s.phase
  maxPc : t.maxPc = s.maxPc
  instructionCount : t.instructionCount = s.instructionCount
  cycles : t.cycles = s.cycles

/-- The next state of each instruction, as one function (spec/40_cycle.md R86). -/
def execState (i : Instr) (s : State) : State :=
  match exec i s with
  | .next t => t
  | _ => s

/-- Every instruction answers a next state. -/
theorem exec_next (i : Instr) (s : State) : exec i s = .next (execState i s) := by
  cases i <;> simp only [execState, exec, execSto_eq, execLda, execBrz, execAdd, execSub, execOr, execAnd, execXor,
    aluWithMemory, withOperand_eq, execNot, execInc, execDec, execZro, aluOnAccumulator, execNop]
  case brz a => cases s.accIsZero <;> rfl

theorem withOperand_frame {a : Addr} {s t : State} {k : Word → State} (h : withOperand a s k = .next t)
    (hk : ∀ m, ExecFrame s (k m)) : ExecFrame s t := by
  rw [withOperand_eq] at h
  cases h
  split
  · exact hk _
  · constructor <;> rfl

/-- No instruction touches what `ExecFrame` names. -/
theorem exec_frame {i : Instr} {s t : State} (h : exec i s = .next t) : ExecFrame s t := by
  cases i with
  | sto a =>
    simp only [exec, execSto_eq] at h
    cases h
    split <;> constructor <;> rfl
  | brz a =>
    simp only [exec, execBrz] at h
    split at h <;> cases h <;> constructor <;> rfl
  | lda a | add a | sub a | or a | and a | xor a =>
    exact withOperand_frame h fun _ => by constructor <;> rfl
  | not | inc | dec | zro | nop =>
    cases h
    constructor <;> rfl

end Sys2Proof.Machine
end

