-- ==== Sys2Proof/Laws/Cycle.lean ====
section
/-! SUPPORT. What FIRST, SECOND and STEP can do: one lemma each, from which facts about a step follow without unfolding it. -/

namespace Sys2Proof.Machine

@[simp] theorem endFirst_of_none {s : State} (h : s.fault = none) : endFirst s = { s with phase := .firstPhaseDone } := by
  simp [endFirst, h]

@[simp] theorem endFirst_of_some {s : State} {r : FaultRecord} (h : s.fault = some r) : endFirst s = s := by
  simp [endFirst, h]

@[simp] theorem endFirst_fault (s : State) : (endFirst s).fault = s.fault := by
  unfold endFirst
  split <;> simp_all

theorem executeWord_eq (w : Word) (s : State) :
    executeWord w s = .next (endFirst (execState (decode w) { s with ir := some (decode w) })) := by
  rw [executeWord, exec_next]

theorem State.fault_cases (s : State) : s.fault = none ∨ ∃ r, s.fault = some r := by
  cases s.fault <;> simp

theorem State.phase_cases (s : State) : s.phase = .idle ∨ s.phase = .firstPhaseDone := by
  cases s.phase <;> simp

/-- FIRST of a core that is halted, in its second phase, at a `pc` that names no cell, or ready: the order of the checks. -/
theorem first_cases (s : State) :
    (∃ r, s.fault = some r ∧ first s = .fault (.halted r)) ∨
    (s.fault = none ∧ s.phase = .firstPhaseDone ∧ first s = .refused .stepSequenceError) ∨
    (s.fault = none ∧ s.phase = .idle ∧ s.memSize ≤ s.pc.toNat ∧
      first s = .next (s.raise ⟨.fetchOutOfRange, s.pc⟩)) ∨
    (s.fault = none ∧ s.phase = .idle ∧ s.pc.toNat < s.memSize ∧
      first s = .next (endFirst (execState (decode (s.cell s.pc)) { s with ir := some (decode (s.cell s.pc)) }))) := by
  rcases s.fault_cases with hf | ⟨r, hf⟩
  · rcases s.phase_cases with hp | hp
    · refine .inr (.inr ?_)
      rcases Nat.lt_or_ge s.pc.toNat s.memSize with h | h
      · exact .inr ⟨hf, hp, h, by simp only [first, hf, hp, State.memRead_ok h, executeWord_eq]⟩
      · exact .inl ⟨hf, hp, h, by simp only [first, hf, hp, State.memRead_error h]⟩
    · exact .inr (.inl ⟨hf, hp, by simp only [first, hf, hp]⟩)
  · exact .inl ⟨r, hf, by simp only [first, hf]⟩

/-- SECOND of a core that is halted, idle, or between the phases. -/
theorem second_cases (s : State) :
    (∃ r, s.fault = some r ∧ second s = .fault (.halted r)) ∨
    (s.fault = none ∧ s.phase = .idle ∧ second s = .refused .stepSequenceError) ∨
    (s.fault = none ∧ s.phase = .firstPhaseDone ∧ second s = .next (commit s)) := by
  rcases s.fault_cases with hf | ⟨r, hf⟩
  · rcases s.phase_cases with hp | hp
    · exact .inr (.inl ⟨hf, hp, by simp only [second, hf, hp]⟩)
    · exact .inr (.inr ⟨hf, hp, by simp only [second, hf, hp]⟩)
  · exact .inl ⟨r, hf, by simp only [second, hf]⟩

end Sys2Proof.Machine
end

