-- ==== Sys2Proof/Laws/PerInstr.lean ====
section
/-! SUPPORT. Per-instruction facts about instructions as syntax. The family Fields: the encoded word of an instruction holds its
kind's opcode in bits 15:12 and its address in bits 11:0 (spec/30_encoding.md R51, R52, R56), and the instruction is well
formed (R57). -/

namespace Sys2Proof.Laws

theorem opcodeField_append (op : Opcode) (a : Addr) : opcodeField (op ++ a) = op := by
  apply BitVec.eq_of_getLsbD_eq
  intro n hn
  simp only [opcodeField, BitVec.getLsbD_extractLsb', BitVec.getLsbD_append]
  simp [hn]

theorem addressField_append (op : Opcode) (a : Addr) : addressField (op ++ a) = a := by
  apply BitVec.eq_of_getLsbD_eq
  intro n hn
  simp only [addressField, BitVec.getLsbD_extractLsb', BitVec.getLsbD_append]
  simp [hn]

/-- A 12-bit address read as an integer and reduced to 12 bits is itself. -/
theorem ofInt_toNat (a : Addr) : BitVec.ofInt 12 (a.toNat : Int) = a := by simp

theorem encode_address {i : Instr} (h : i.kind.isAddressKind = true) : encode i = i.kind.opcode ++ i.address := by
  simp [encode, encodeKind, h]

theorem encode_noAddress {i : Instr} (h : i.kind.isAddressKind = false) : encode i = i.kind.opcode ++ 0#12 := by
  simp [encode, encodeKind, h]

end Sys2Proof.Laws

namespace Sys2Proof.Laws.Fields

/-- The fields of an instruction's word. -/
def Statement (i : Instr) : Prop :=
  i.wellFormed = true ∧ opcodeField (encode i) = i.kind.opcode ∧ addressField (encode i) = i.address

theorem of_address {i : Instr} (h : i.kind.isAddressKind = true) : Statement i := by
  rw [Statement, encode_address h, opcodeField_append, addressField_append]
  exact ⟨by simp [Instr.wellFormed, Instr.value, InstrValue.wellFormed, h], rfl, rfl⟩

theorem of_noAddress {i : Instr} (h : i.kind.isAddressKind = false) (ha : i.address = 0) : Statement i := by
  rw [Statement, encode_noAddress h, opcodeField_append, addressField_append]
  exact ⟨by simp [Instr.wellFormed, Instr.value, InstrValue.wellFormed, ha], rfl, ha.symm⟩

theorem sto (a : Addr) : Statement (.sto a) := of_address rfl
theorem lda (a : Addr) : Statement (.lda a) := of_address rfl
theorem brz (a : Addr) : Statement (.brz a) := of_address rfl
theorem add (a : Addr) : Statement (.add a) := of_address rfl
theorem sub (a : Addr) : Statement (.sub a) := of_address rfl
theorem or (a : Addr) : Statement (.or a) := of_address rfl
theorem and (a : Addr) : Statement (.and a) := of_address rfl
theorem xor (a : Addr) : Statement (.xor a) := of_address rfl
theorem not : Statement .not := of_noAddress rfl rfl
theorem inc : Statement .inc := of_noAddress rfl rfl
theorem dec : Statement .dec := of_noAddress rfl rfl
theorem zro : Statement .zro := of_noAddress rfl rfl
theorem nop : Statement .nop := of_noAddress rfl rfl

end Sys2Proof.Laws.Fields
end

