-- ==== Sys2Proof/Laws/Step.lean ====
section
/-! SUPPORT. What STEP can do, and that an instruction placed at `pc` is the one the next step fetches. -/

namespace Sys2Proof.Machine

/-- A STEP that answers a next state performed a FIRST that answered one: either that recorded an error and STEP stopped there, or
the second phase followed. -/
theorem step_cases {s t : State} (h : step s = .next t) :
    ∃ u, first s = .next u ∧
      ((∃ r, u.fault = some r ∧ t = u) ∨ (u.fault = none ∧ u.phase = .firstPhaseDone ∧ t = commit u)) := by
  simp only [step, wholeStep] at h
  split at h
  · rename_i u hu
    refine ⟨u, hu, ?_⟩
    split at h
    · rename_i hn
      rcases second_cases u with ⟨_, _, hs⟩ | ⟨_, _, hs⟩ | ⟨_, hp, hs⟩ <;> rw [hs] at h
      · cases h
      · cases h
      · injection h with h
        exact .inr ⟨hn, hp, h.symm⟩
    · rename_i r hr
      injection h with h
      exact .inl ⟨r, hr, h.symm⟩
  · cases h
  · cases h

/-- The word `decodeTableWord` reads is the one `withFetchWord` leaves where the next fetch takes it. -/
theorem withFetchWord_fetched {s : State} {nbits w : Nat} {i : Instr} (hw : Memory.wf s.mem = true)
    (hpc : s.inRange s.pc = true) (hi : decodeTableWord nbits w = some i) :
    decode ((s.withFetchWord nbits w).cell s.pc) = i := by
  unfold decodeTableWord at hi
  split at hi
  · rename_i h
    injection hi with hi
    simp only [State.cell, State.withFetchWord, if_pos hpc, Nat.mod_eq_of_lt h.2]
    rw [Memory.peek_poke_same _ _ hw, hi]
  · cases hi

end Sys2Proof.Machine
end

