-- ==== Sys2Proof/Tests/Slice0.lean ====
section
/-! SUPPORT. Tests. Expected results come from spec/95_test_vectors.md and the worked examples of the section files, named at each
test. The witnesses show, for each statement that has hypotheses, a state and operands that meet them. -/

namespace Sys2Proof.Tests

open Sys2Proof.Machine Sys2Proof.Statement

/-- A core of MEM_SIZE `last + 1` in Idle, with the given accumulator, `pc` and cells. -/
def small (last : Addr) (acc : Word) (pc : Addr) (cells : Memory) : State :=
  { State.resetOf ⟨last⟩ with acc := acc, pc := pc, mem := cells }

/-- The same core with the default MEM_SIZE. -/
def full (acc : Word) (pc : Addr) (cells : Memory) : State := small 4095 acc pc cells

/-- The state an outcome answers, or the one given. -/
def nextOr (s : State) : Host.Outcome State Fault Refusal → State
  | .next t => t
  | _ => s

/-- The state after one STEP. -/
def after (s : State) : State := nextOr s (step s)

/-- The state after one FIRST. -/
def half (s : State) : State := nextOr s (first s)

/-! ## Ill-formed data is refused -/

/-- spec/30_encoding.md R57: a no-address kind with an address. -/
theorem test_illFormed_instrValue : InstrValue.wellFormed ⟨.not, 5⟩ = false ∧ InstrValue.wellFormed ⟨.not, 0⟩ = true := by decide

/-- spec/00_scope.md R4: sizes outside 1 to 4096. -/
theorem test_illFormed_memSize :
    memSizeWellFormed 0 = false ∧ memSizeWellFormed 4097 = false ∧ memSizeWellFormed 1 = true ∧
    memSizeWellFormed 4096 = true := by decide

/-- spec/20_memory.md R44: an address at MEM_SIZE, and a negative one. -/
theorem test_illFormed_imageRange :
    Image.inRange 16 [⟨16, 0⟩] = false ∧ Image.inRange 16 [⟨-1, 0⟩] = false ∧ Image.inRange 16 [⟨15, 0⟩] = true := by decide

/-- spec/30_encoding.md R74: one cell named twice. -/
theorem test_illFormed_imageDistinct : Image.distinct [⟨3, 1⟩, ⟨4, 1⟩, ⟨3, 1⟩] = false := by decide

/-! ## Decoding and encoding, words written out from spec/30_encoding.md R51 to R53 -/

theorem test_decode_sto : decode 0b0000000001100100#16 = .sto 100 ∧ encode (.sto 100) = 0x0064#16 := by decide
theorem test_decode_lda : decode 0b0001111111111111#16 = .lda 4095 ∧ encode (.lda 4095) = 0x1FFF#16 := by decide
theorem test_decode_brz : decode 0b0010101010111100#16 = .brz 2748 ∧ encode (.brz 2748) = 0x2ABC#16 := by decide
theorem test_decode_add : decode 0b0011000000000101#16 = .add 5 ∧ encode (.add 5) = 12293#16 := by decide
theorem test_decode_sub : decode 0b0100111111111111#16 = .sub 4095 ∧ encode (.sub 4095) = 20479#16 := by decide
theorem test_decode_or : decode 0b0101000000001010#16 = .or 10 ∧ encode (.or 10) = 0x500A#16 := by decide
theorem test_decode_and : decode 0b0110000000001001#16 = .and 9 ∧ encode (.and 9) = 0x6009#16 := by decide
theorem test_decode_xor : decode 0b0111000000000001#16 = .xor 1 ∧ encode (.xor 1) = 0x7001#16 := by decide
theorem test_decode_not : decode 0b1000000100100011#16 = .not ∧ encode .not = 0x8000#16 := by decide
theorem test_decode_inc : decode 0b1001111111111111#16 = .inc ∧ encode .inc = 0x9000#16 := by decide
theorem test_decode_dec : decode 0b1010000000000001#16 = .dec ∧ encode .dec = 0xA000#16 := by decide
theorem test_decode_zro : decode 0b1011101010111100#16 = .zro ∧ encode .zro = 0xB000#16 := by decide
theorem test_decode_nop : decode 0b1100000100100011#16 = .nop ∧ encode .nop = 0xC000#16 := by decide

/-- V-ENC-11. -/
theorem test_decode_nopAliases : decode 0xD000#16 = .nop ∧ decode 0xE5A5#16 = .nop ∧ decode 0xFFFF#16 = .nop := by decide

/-- V-ENC-3: the address is reduced modulo 4096 to a non-negative value. -/
theorem test_encode_reduces :
    encodeKind .lda 4096 = 0x1000#16 ∧ encodeKind .lda 4097 = 0x1001#16 ∧ encodeKind .lda (-1) = 0x1FFF#16 := by decide

/-- The table's numbering of bits: a word of 16 bits, and no word of more. -/
theorem test_decodeTableWord : decodeTableWord 16 0x3005 = some (.add 5) ∧ decodeTableWord 32 0x3005 = none := by decide

/-- A placed instruction is the one the next step runs: INC from reset (worked example of R141). -/
theorem test_withFetchWord : (after (State.reset.withFetchWord 16 0x9000)).acc = 1 := by decide

/-! ## Instructions, one step each -/

/-- V-TR-1. -/
theorem test_sto : (after (full 0xBEEF 0 [(0, 0x0064), (100, 0x1234)])).cell 100 = 0xBEEF := by decide

/-- V-TR-3: the instruction overwrites itself. -/
theorem test_sto_self : (after (full 0x9000 3 [(3, 0x0003)])).cell 3 = 0x9000 := by decide

/-- V-TR-2. -/
theorem test_lda : (after (full 0 0 [(0, 0x1064), (100, 0x8001)])).acc = 0x8001 := by decide

/-- V-TR-4: the instruction's own word. -/
theorem test_lda_self : (after (full 7 5 [(5, 0x1005)])).acc = 0x1005 := by decide

/-- V-BR-3: a taken branch to itself. -/
theorem test_brz_self :
    (after (full 0 5 [(5, 0x2005)])).pc = 5 ∧ (after (full 0 5 [(5, 0x2005)])).branchCount = 1 := by decide

/-- V-BR-7: not taken, at the top of the address space. -/
theorem test_brz_wrap :
    (after (full 5 4095 [(4095, 0x2007)])).pc = 0 ∧ (after (full 5 4095 [(4095, 0x2007)])).branchCount = 0 := by decide

/-- V-ALU-1, ADD. -/
theorem test_add_wraps : (after (full 0xFFFF 0 [(0, 0x3014), (20, 1)])).acc = 0 := by decide

/-- V-ALU-8: the operand is the instruction itself. -/
theorem test_add_self : (after (full 1 6 [(6, 0x3006)])).acc = 0x3007 := by decide

/-- V-ALU-6, SUB: which operand is the minuend. -/
theorem test_sub : (after (full 5 0 [(0, 0x4014), (20, 0xFFFF)])).acc = 6 := by decide

/-- Worked examples of R123, R124, R125. -/
theorem test_or : (after (full 0x3030 0 [(0, 0x500A), (10, 3)])).acc = 0x3033 := by decide
theorem test_and : (after (full 0xF0F0 0 [(0, 0x6009), (9, 0x3C3C)])).acc = 0x3030 := by decide
theorem test_xor : (after (full 0x3033 0 [(0, 0x7008), (8, 0xF0F0)])).acc = 0xC0C3 := by decide

/-- V-ACC-2. -/
theorem test_not : (after (full 0xC0C3 0 [(0, 0x8FFF)])).acc = 0x3F3C := by decide

/-- V-ACC-3. -/
theorem test_inc_wraps : (after (full 0xFFFF 0 [(0, 0x9000)])).acc = 0 := by decide

/-- V-ACC-5. -/
theorem test_dec_wraps : (after (full 0 0 [(0, 0xA000)])).acc = 0xFFFF := by decide

/-- Worked example of R143, with its snapshot. -/
theorem test_zro : (half (full 0x15 0 [(0, 0xB000)])).acc = 0 ∧
    (half (full 0x15 0 [(0, 0xB000)])).snapshot = { accOld := some 0x15, aluResult := some 0 } := by decide

/-- V-NOP-2. -/
theorem test_nop : (half (full 7 4095 [(4095, 0xF123)])).ir = some .nop ∧ (after (full 7 4095 [(4095, 0xF123)])).pc = 0 := by
  decide

/-! ## The step machine, errors, reset and load -/

/-- V-CYC-6: STEP straight after RESET runs `STO 0`. -/
theorem test_step_from_reset : (after State.reset).pc = 1 ∧ (after State.reset).instructionCount = 1 ∧
    (after State.reset).mem = [] ∧ State.reset.done = true := by decide

/-- V-CYC-1: a second FIRST is refused, and SECOND then ends Ok. -/
theorem test_first_twice :
    first (half (full 0 0 [(0, 0x9000)])) = .refused .stepSequenceError ∧
    (nextOr State.reset (second (half (full 0 0 [(0, 0x9000)])))).pc = 1 := ⟨rfl, rfl⟩

/-- V-FLT-1, its third instruction, MEM_SIZE = 1024. -/
theorem test_store_out_of_range :
    (after (small 1023 2 2 [(2, 0x0400)])).fault = some ⟨.storeOutOfRange, 1024⟩ ∧
    (after (small 1023 2 2 [(2, 0x0400)])).ir = some (.sto 1024) ∧
    (after (small 1023 2 2 [(2, 0x0400)])).pc = 2 := by decide

/-- V-FLT-2, its second instruction. -/
theorem test_load_out_of_range :
    (after (small 15 1 1 [(1, 0x3010)])).fault = some ⟨.loadOutOfRange, 16⟩ ∧
    (after (small 15 1 1 [(1, 0x3010)])).acc = 1 := by decide

/-- V-FLT-6: `pc` does not wrap at MEM_SIZE, and the next fetch fails; V-FLT-5: the core is then halted. -/
theorem test_fetch_out_of_range :
    (after (small 1023 0 1023 [(1023, 0xC000)])).pc = 1024 ∧
    (after (after (small 1023 0 1023 [(1023, 0xC000)]))).fault = some ⟨.fetchOutOfRange, 1024⟩ ∧
    step (after (after (small 1023 0 1023 [(1023, 0xC000)]))) = .fault (.halted ⟨.fetchOutOfRange, 1024⟩) :=
  ⟨rfl, rfl, rfl⟩

/-- The debug listing's examples (spec/20_memory.md R45). -/
theorem test_debugRow : debugRow 0xFFFF =
    ⟨"1111111111111111".toList, "65535".toList, "FF FF".toList, "-1".toList⟩ := by decide

/-- V-ASM-6: blank and comment lines count. -/
theorem test_assemble_line_number :
    assemble "\n# c\nNOT 5".toList = .error (.syntaxError 3 "NOT 5".toList) := by decide

/-- V-ASM-10. -/
theorem test_assemble_constant : assemble "X = 3\nADD X  # use".toList = .ok ⟨[⟨0, 0x3003⟩], some 0⟩ := by decide

/-- R64, R67: one or more spaces or tabs on each side of the equals sign. -/
theorem test_assemble_constant_blanks :
    parseLine "X \t=  3".toList = some (.constant "X".toList 3) ∧
    assemble "INC\nX=3".toList = .error (.syntaxError 2 "X=3".toList) ∧
    parseLine "X =3".toList = none ∧ parseLine "X= 3".toList = none := by decide

/-- Log 24: the order in which defects of one text are answered. -/
theorem test_assemble_several_defects :
    assemble "x:\nx = 1\nBRZ y\n:0:1".toList = .error (.duplicateName "x".toList) ∧
    assemble "BRZ y\n:0:1".toList = .error (.undefinedName "y".toList) := by decide

/-- Decision D13: an undefined name, a name bound twice; decision D12: a data line over an instruction. -/
theorem test_assemble_refusals :
    assemble "BRZ x".toList = .error (.undefinedName "x".toList) ∧
    assemble "x:\nx = 1".toList = .error (.duplicateName "x".toList) ∧
    assemble "NOP\n:0:1".toList = .error .loadOrderOpen := by decide

/-! ## Witnesses: each statement's hypotheses can be met, at the ends of their ranges -/

/-- A core of 16 cells with one instruction at 0, and 7 in its last cell. -/
def one (acc : Word) (w : Word) : State := small 15 acc 0 [(0, w), (15, 7)]

theorem witness_DecodeEncodeRoundTrip : (Instr.xor 4095).wellFormed = true ∧
    32768 ≤ (0x8000#16).toNat ∧ (0xCFFF#16).toNat < 53248 := by decide
theorem witness_DecodeReadsOpcodeAndAddress : 12 ≤ (0xC000#16).toNat / 4096 := by decide
theorem witness_EqualInstructionsAreSameKindAndAddress :
    (decode 0x7001).kind = (decode 0x7001).kind ∧ (decode 0x7001).kind.isAddressKind = true := by decide
theorem witness_LowBitsOfFormatNAreIgnored : 8 ≤ (8#4).toNat ∧ 8 ≤ (15#4).toNat := by decide
theorem witness_AliasOpcodesAreNop :
    0xC000 ≤ (0xC000#16).toNat ∧ (one 3 0xC000).ready = true ∧ (one 3 0xC000).cell (one 3 0xC000).pc = 0xC000#16 := by decide
theorem witness_MemReadChecksBounds_read :
    (15#12).toNat < (one 0 0).memSize ∧ (one 0 0).memSize ≤ (16#12).toNat := by decide
theorem witness_MemReadChecksBounds_fetch :
    (small 15 0 16 []).fault = none ∧ (small 15 0 16 []).phase = .idle ∧
    (small 15 0 16 []).memSize ≤ (small 15 0 16 []).pc.toNat := by decide
theorem witness_MemReadChecksBounds_operand :
    (Instr.xor 16).kind.isAddressKind = true ∧ (Instr.xor 16).kind ≠ .sto ∧ (Instr.xor 16).kind ≠ .brz ∧
    (one 0 0).memSize ≤ (Instr.xor 16).address.toNat := by decide
theorem witness_MemWriteChangesOneCell :
    (one 0 0).mem.wf = false ∧ (one 0 1).mem.wf = true ∧ (15#12).toNat < (one 0 1).memSize ∧
    (one 0 1).memSize ≤ (16#12).toNat := by decide
theorem witness_MemWriteChangesOneCell_notSto : (Instr.lda 15).kind ≠ .sto ∧ ∃ t, exec (.lda 15) (one 0 1) = .next t :=
  ⟨by decide, _, rfl⟩
theorem witness_CanonicalMemoriesAreEqualIfReadsAre :
    ∃ m n : Memory, m.wf = true ∧ n.wf = true ∧ ∀ a, m.peek a = n.peek a :=
  ⟨[(1, 2)], [(1, 2)], by decide, by decide, fun _ => rfl⟩
theorem witness_HostReadIsBoundsChecked :
    (one 0 1).hostRead 15 = some 7 ∧ (one 0 1).hostRead 16 = none ∧ (one 0 1).hostRead (-1) = none := by decide
theorem witness_DebugRowSpellsTheCell : (0x8000#16).toInt < 0 ∧ 0 ≤ (0x7FFF#16).toInt ∧
    (0xFFFF#16).toInt < 0 ∧ 0 ≤ (0#16).toInt ∧ (1#16) ≠ 0 := by decide

/-- In range and out of range, for the seven kinds with a memory operand. -/
theorem witness_operandRange : (15#12).toNat < (one 5 0x300F).memSize ∧ (one 5 0x300F).memSize ≤ (16#12).toNat := by decide
theorem witness_StoStoresTheAccumulator : fetches (one 5 0x000F) (.sto 15) ∧ (one 5 0x000F).mem.wf = true :=
  ⟨⟨rfl, rfl⟩, rfl⟩
theorem witness_LdaLoadsTheCell : fetches (one 5 0x100F) (.lda 15) := ⟨rfl, rfl⟩
theorem witness_BrzBranchesOnZero : (fetches (one 0 0x2FFF) (.brz 4095) ∧ (one 0 0x2FFF).acc = 0) ∧
    fetches (one 0x8000 0x2FFF) (.brz 4095) ∧ (one 0x8000 0x2FFF).acc ≠ 0 := ⟨⟨⟨rfl, rfl⟩, rfl⟩, ⟨rfl, rfl⟩, by decide⟩
theorem witness_AddWrapsModulo65536 : fetches (one 5 0x300F) (.add 15) := ⟨rfl, rfl⟩
theorem witness_SubSubtractsTheCell : fetches (one 5 0x400F) (.sub 15) := ⟨rfl, rfl⟩
theorem witness_LogicalOperationsActBitByBit :
    fetches (one 5 0x500F) (.or 15) ∧ fetches (one 5 0x600F) (.and 15) ∧ fetches (one 5 0x700F) (.xor 15) :=
  ⟨⟨rfl, rfl⟩, ⟨rfl, rfl⟩, ⟨rfl, rfl⟩⟩
theorem witness_NotComplements : fetches (one 5 0x8FFF) .not ∧ (0x8FFF#16).toNat / 4096 = 8 := ⟨⟨rfl, rfl⟩, rfl⟩
theorem witness_IncAndDecWrap : (fetches (one 5 0x9000) .inc ∧ (0x9000#16).toNat / 4096 = 9) ∧
    fetches (one 5 0xAFFF) .dec ∧ (0xAFFF#16).toNat / 4096 = 10 := ⟨⟨⟨rfl, rfl⟩, rfl⟩, ⟨rfl, rfl⟩, rfl⟩
theorem witness_ZroClearsTheAccumulator : fetches (one 5 0xB000) .zro ∧ (0xBFFF#16).toNat / 4096 = 11 := ⟨⟨rfl, rfl⟩, rfl⟩
theorem witness_NopOnlyAdvances : fetches (one 5 0xFFFF) .nop ∧ 0xC000 ≤ (0xC000#16).toNat := ⟨⟨rfl, rfl⟩, by decide⟩

theorem witness_NonStoringFrame : (Instr.brz 4095).kind ≠ .sto ∧ (∃ t, exec (.brz 4095) (one 0 0x2FFF) = .next t) ∧
    (Instr.add 15).address.toNat < (one 5 0x300F).memSize ∧ ∃ t, exec (.add 15) (one 5 0x300F) = .next t :=
  ⟨by decide, ⟨_, rfl⟩, by decide, _, rfl⟩
theorem witness_StoFrame : (∃ t, exec (.sto 15) (one 5 0x000F) = .next t) ∧ (∃ t, exec (.sto 16) (one 5 0x000F) = .next t) ∧
    (one 5 0x000F).mem.wf = true ∧ (14#12) ≠ 15 := ⟨⟨_, rfl⟩, ⟨_, rfl⟩, rfl, by decide⟩

/-- A halted core, and a core between its phases: after `STO 16` in 16 cells, and after the first phase of INC. -/
theorem witness_FirstFetchesDecodesExecutes :
    (after (one 5 0x0010)).fault = some ⟨.storeOutOfRange, 16⟩ ∧
    ((half (one 5 0x9000)).fault = none ∧ (half (one 5 0x9000)).phase = .firstPhaseDone) ∧
    ((small 15 0 16 []).fault = none ∧ (small 15 0 16 []).phase = .idle ∧ (small 15 0 16 []).memSize ≤ 16) ∧
    (small 15 0 15 []).ready = true := by decide
theorem witness_SecondCommits :
    (after (one 5 0x0010)).fault = some ⟨.storeOutOfRange, 16⟩ ∧
    ((one 5 0x9000).fault = none ∧ (one 5 0x9000).phase = .idle) ∧
    ((half (one 0 0x2FFF)).fault = none ∧ (half (one 0 0x2FFF)).phase = .firstPhaseDone ∧
      (half (one 0 0x2FFF)).brTaken = true) ∧
    ((half (one 5 0x2FFF)).fault = none ∧ (half (one 5 0x2FFF)).phase = .firstPhaseDone ∧
      (half (one 5 0x2FFF)).brTaken = false) := by decide
theorem witness_StepComposesBothPhases :
    ((half (one 5 0x9000)).fault = none ∧ (half (one 5 0x9000)).phase = .firstPhaseDone) ∧
    (∃ t, first (one 5 0x9000) = .next t ∧ t.fault = none) ∧ ∃ t, first (one 5 0x0010) = .next t ∧ t.fault ≠ none :=
  ⟨⟨rfl, rfl⟩, ⟨_, rfl, rfl⟩, _, rfl, by decide⟩
theorem witness_StepRunsTheDecodedInstruction :
    fetches (one 5 0x300F) (.add 15) ∧ (Instr.add 15).wellFormed = true ∧
    ∃ t, exec (.add 15) { one 5 0x300F with ir := some (.add 15) } = .next t := ⟨⟨rfl, rfl⟩, rfl, _, rfl⟩
theorem witness_CommandLegality :
    ((one 5 0x9000).fault = none ∧ (one 5 0x9000).phase = .idle) ∧
    ((half (one 5 0x9000)).fault = none ∧ (half (one 5 0x9000)).phase = .firstPhaseDone ∧
      (half (one 5 0x9000)).done = true) ∧
    ({ half (one 5 0x9000) with maxPc := some 0 } : State).done = false ∧
    (after (one 5 0x0010)).fault ≠ none ∧ Image.distinct [⟨0, 1⟩, ⟨16, 1⟩] = true ∧
    perform 0 .run (one 5 0x9000) = .ended .ok (one 5 0x9000) := by decide
theorem witness_DoneComparesAndDoesNotGate :
    ({ full 0 4095 [] with maxPc := some 4095 } : State).maxPc = some 4095 ∧ (∃ t, first (one 5 0x9000) = .next t) ∧
    (∃ t, second (half (one 5 0x9000)) = .next t) ∧ ∃ t, step (one 5 0x9000) = .next t :=
  ⟨rfl, ⟨_, rfl⟩, ⟨_, rfl⟩, _, rfl⟩
theorem witness_RunLoopsStepUntilDone :
    (one 5 0x9000).fault = none ∧ (one 5 0x9000).done = true ∧ ({ one 5 0x9000 with maxPc := some 0 } : State).done = false ∧
    (∃ t, perform 0 .step { one 5 0x9000 with maxPc := some 0 } = .ended .ok t) ∧
    (∃ t, perform 0 .step { one 5 0x0010 with maxPc := some 0 } = .ended .memoryAddressError t) ∧
    ∃ t, run 1 { half (one 5 0x9000) with maxPc := some 0 } = .ended .stepSequenceError t :=
  ⟨rfl, rfl, rfl, ⟨_, rfl⟩, ⟨_, rfl⟩, _, rfl⟩
theorem witness_PcAdvance :
    ∃ t u, (one 0 0x2FFF).fault = none ∧ first (one 0 0x2FFF) = .next t ∧ t.fault = none ∧ step (one 0 0x2FFF) = .next u ∧
      u.fault = none := ⟨_, _, rfl, rfl, rfl, rfl, rfl⟩
theorem witness_SnapshotTable :
    ∃ t, (one 5 0x300F).fault = none ∧ first (one 5 0x300F) = .next t ∧ t.fault = none := ⟨_, rfl, rfl, rfl⟩
theorem witness_MemoryAddressErrorIsPrecise :
    (∃ t, step (one 5 0x0010) = .next t ∧ t.fault = some ⟨.storeOutOfRange, 16⟩) ∧
    ∃ t, step (small 15 0 16 []) = .next t ∧ t.fault = some ⟨.fetchOutOfRange, 16⟩ := ⟨⟨_, rfl, rfl⟩, _, rfl, rfl⟩
theorem witness_NoErrorWithFullMemory :
    (full 0 4095 []).memSize = 4096 ∧ (full 0 4095 []).fault = none ∧ (full 0 4095 []).phase = .idle := by decide
theorem witness_CountersCountTheirEvents :
    (∃ t, first (one 0 0x2FFF) = .next t) ∧ (∃ t, second (half (one 0 0x2FFF)) = .next t) ∧
    ∃ t, (one 0 0x2FFF).fault = none ∧ step (one 0 0x2FFF) = .next t := ⟨⟨_, rfl⟩, ⟨_, rfl⟩, _, rfl, rfl⟩

theorem witness_StepKeepsInvariant : (one 5 0x000F).inv = true ∧ ∃ t, step (one 5 0x000F) = .next t := ⟨rfl, _, rfl⟩
theorem witness_CommandsKeepInvariant :
    (half (one 0 0x2FFF)).inv = true ∧ (∃ r t, perform 3 .second (half (one 0 0x2FFF)) = .ended r t) ∧
    (∃ r t, perform 3 (.load [⟨15, -1⟩] (some 0)) (half (one 0 0x2FFF)) = .ended r t) ∧
    ∃ r t, perform 3 .run (one 0 0x2FFF) = .ended r t := ⟨rfl, ⟨_, _, rfl⟩, ⟨_, _, rfl⟩, _, _, rfl⟩
theorem witness_LimitAndSizeAreFixedByStepping : ∃ r t, perform 0 .step (one 0 0x2FFF) = .ended r t := ⟨_, _, rfl⟩
theorem witness_OnlyStoChangesCells :
    ∃ t, (one 5 0x000F).mem.wf = true ∧ step (one 5 0x000F) = .next t ∧ t.cell 15 ≠ (one 5 0x000F).cell 15 :=
  ⟨_, rfl, rfl, by decide⟩
theorem witness_StoredWordIsFetchedNext :
    (one 0x9000 0x0001).mem.wf = true ∧ fetches (one 0x9000 0x0001) (.sto 1) ∧
    (1#12).toNat < (one 0x9000 0x0001).memSize ∧ (1#12) = (one 0x9000 0x0001).pc + 1 := ⟨rfl, ⟨rfl, rfl⟩, by decide, rfl⟩
theorem witness_LoadPlacesTheImage :
    Image.wellFormed (one 0 1).memSize [⟨0, 65537⟩, ⟨15, -1⟩] = true ∧
    (Image.distinct [⟨16, 0⟩] = true ∧ Image.inRange (one 0 1).memSize [⟨16, 0⟩] = false) ∧
    Image.distinct [⟨0, 1⟩, ⟨0, 1⟩] = false ∧
    (Image.distinct [⟨16, 1⟩, ⟨16, 2⟩] = false ∧ Image.inRange (one 0 1).memSize [⟨16, 1⟩, ⟨16, 2⟩] = false) ∧
    ∀ w ∈ ([⟨0, 65537⟩, ⟨15, -1⟩] : Image), w.address ≠ (1#12 : Addr).toNat := by decide
theorem witness_LoadIgnoresWriteOrder : ([⟨0, 1⟩, ⟨1, 2⟩] : Image).Perm [⟨1, 2⟩, ⟨0, 1⟩] := by decide
theorem witness_LoadedProgramIsFetched : (List.replicate 16 Instr.inc).length ≤ (one 0 1).memSize := by decide
theorem witness_FinalStateOfARun :
    (one 0 0x2FFF).phase = .idle ∧ (one 0 0x2FFF).ir = none ∧
    ∃ t, run 1 { one 0 0x2FFF with maxPc := some 0 } = .ended .ok t ∧ t.maxPc = some 0 := ⟨rfl, rfl, _, rfl, rfl⟩
theorem witness_RunEndsOneWay : ∃ t r, run 1 { one 0 0x2FFF with maxPc := some 0 } = .ended r t := ⟨_, _, rfl⟩
theorem witness_SelfBranchRunsForever :
    fetches { one 0 0x2000 with maxPc := some 0 } (.brz 0) ∧ (one 0 0x2000).acc = 0 ∧
    ({ one 0 0x2000 with maxPc := some 0 } : State).done = false := ⟨⟨rfl, rfl⟩, rfl, rfl⟩
theorem witness_FullProgramRunsForever :
    ({ full 0 0 [] with maxPc := some 4095 } : State).memSize = 4096 ∧
    ({ full 0 0 [] with maxPc := some 4095 } : State).fault = none ∧
    ({ full 0 0 [] with maxPc := some 4095 } : State).phase = .idle := by decide
theorem witness_InstructionLinesArePlacedInOrder :
    ∃ ls p, parseLines 1 (splitLines "x:\nBRZ x".toList) = .ok ls ∧ assemble "x:\nBRZ x".toList = .ok p ∧
      (instructionsOf ls)[0]? = some (.brz, some (.name "x".toList)) :=
  ⟨[.label "x".toList, .instruction .brz (some (.name "x".toList))], ⟨[⟨0, 0x2000⟩], some 0⟩, by decide, by decide, by decide⟩
theorem witness_AssembledTextIsLoadedWhole :
    assemble ":15:9\nINC".toList = .ok ⟨[⟨15, 9⟩, ⟨0, 0x9000⟩], some 0⟩ ∧
    Image.inRange (one 0 1).memSize [⟨15, 9⟩, ⟨0, 0x9000⟩] = true := by decide
theorem witness_MicroProgramReads :
    signalNames[0]? = some "write[ram]" ∧ signalNames[11]? = some "alu0" ∧ "alu4" ∉ signalNames ∧
    0xC000 ≤ (0xC000#16).toNat := by decide

end Sys2Proof.Tests
end

section
/-! SUPPORT and PROOFS. The memory controller (spec/20_memory.md): what a read and a write of one cell do, which instructions
make them, and the obligations of R33 and R34. -/

namespace Sys2Proof.Machine

theorem State.cell_poke_same {s : State} (a : Addr) (v : Word) (hwf : s.mem.wf = true) :
    State.cell { s with mem := s.mem.poke a.toNat v } a = v :=
  Memory.peek_poke_same _ _ hwf

theorem State.cell_poke_other {s : State} {a b : Addr} (v : Word) (hwf : s.mem.wf = true) (hab : b ≠ a) :
    State.cell { s with mem := s.mem.poke a.toNat v } b = s.cell b :=
  Memory.peek_poke_other _ hwf (BitVec.toNat_ne.1 hab)

theorem withOperand_outOfRange {a : Addr} {s : State} {k : Word → State} (h : s.memSize ≤ a.toNat) :
    withOperand a s k = .next (s.raise ⟨.loadOutOfRange, a⟩) := by
  rw [withOperand_eq, if_neg (Nat.not_lt.2 h)]

/-- The operand read writes no cell: memory changes only where the continuation changes it (R37). -/
theorem withOperand_mem {a : Addr} {s t : State} {k : Word → State} (h : withOperand a s k = .next t)
    (hk : ∀ m, (k m).mem = s.mem) : t.mem = s.mem := by
  rw [withOperand_eq] at h
  cases h
  split
  · exact hk _
  · rfl

/-- An address-kind other than STO and BRZ is an operand read at its own address (R39). -/
theorem exec_eq_withOperand {i : Instr} (s : State) (haddr : i.kind.isAddressKind = true) (hsto : i.kind ≠ .sto)
    (hbrz : i.kind ≠ .brz) : ∃ k, exec i s = withOperand i.address s k := by
  cases i with
  | sto a => exact absurd rfl hsto
  | brz a => exact absurd rfl hbrz
  | lda a | add a | sub a | or a | and a | xor a => exact ⟨_, rfl⟩
  | not | inc | dec | zro | nop => nomatch haddr

/-- Only STO writes memory (R34). -/
theorem exec_mem_of_kind_ne_sto {i : Instr} {s t : State} (hsto : i.kind ≠ .sto) (h : exec i s = .next t) :
    t.mem = s.mem := by
  cases i with
  | sto a => exact absurd rfl hsto
  | brz a =>
    simp only [exec, execBrz] at h
    split at h <;> cases h <;> rfl
  | lda a | add a | sub a | or a | and a | xor a => exact withOperand_mem h fun _ => rfl
  | not | inc | dec | zro | nop =>
    cases h
    rfl

theorem first_fetchOutOfRange {s : State} (hfault : s.fault = none) (hphase : s.phase = .idle)
    (hpc : s.memSize ≤ s.pc.toNat) : first s = .next (s.raise ⟨.fetchOutOfRange, s.pc⟩) := by
  rcases first_cases s with ⟨_, hhalted, _⟩ | ⟨_, hdone, _⟩ | ⟨_, _, _, hfirst⟩ | ⟨_, _, hin, _⟩
  · simp [hfault] at hhalted
  · simp [hphase] at hdone
  · exact hfirst
  · omega

theorem load_of_wellFormed {image : Image} {s : State} (m : Option Addr)
    (h : Image.wellFormed s.memSize image = true) : load image m s = .ended .ok (loadedState image m s) := by
  obtain ⟨hrange, hdistinct⟩ := Bool.and_eq_true_iff.1 h
  simp [load, hrange, hdistinct]

theorem wellFormed_singleton {memSize a : Nat} (v : Int) (h : a < memSize) :
    Image.wellFormed memSize [⟨a, v⟩] = true := by
  simp [Image.wellFormed, Image.inRange, Image.distinct, h]

/-- LOAD writes a value reduced modulo 65536 (spec/30_encoding.md R69). -/
theorem loadedState_singleton_cell (s : State) (a : Addr) (v : Int) (m : Option Addr) :
    (loadedState [⟨a.toNat, v⟩] m s).cell a = BitVec.ofInt 16 v :=
  State.cell_poke_same (s := State.resetOf s.cfg) a _ (Memory.wf_resetOf s.cfg)

/-- Settles O13: the write is `Memory.poke`, whose laws give the one changed cell; of the instructions only STO writes; LOAD of
one write is `loadedState`. -/
theorem memWriteChangesOneCell : Obligations.MemWriteChangesOneCell := by
  refine ⟨fun s a v hwf ha => ?_, fun _ _ _ => State.memWrite_error, fun _ _ _ => exec_mem_of_kind_ne_sto,
    fun s a v m ha => ?_⟩
  · exact ⟨_, State.memWrite_ok ha, State.cell_poke_same a v hwf, fun _ => State.cell_poke_other v hwf, rfl⟩
  · refine ⟨_, load_of_wellFormed m (wellFormed_singleton v ha), ?_⟩
    rw [loadedState_singleton_cell, BitVec.toNat_ofInt]
    omega

/-- Settles O12: the bounds check of the read itself, then of its two callers, the fetch and the operand read. -/
theorem memReadChecksBounds : Obligations.MemReadChecksBounds := by
  refine ⟨fun _ _ _ => ⟨State.memRead_ok, State.memRead_error⟩, fun _ => first_fetchOutOfRange,
    fun s i haddr hsto hbrz hrange => ?_⟩
  obtain ⟨k, hk⟩ := exec_eq_withOperand s haddr hsto hbrz
  rw [hk, withOperand_outOfRange hrange]
  rfl

end Sys2Proof.Machine
end

section
/-! SUPPORT and PROOFS. The encoding (spec/30_encoding.md R51 to R62): a word is its opcode field followed by its address field,
and decode, encode and the exports are said of the two fields. -/

namespace Sys2Proof.Laws

open Sys2Proof.Machine

/-! ## The two fields of a word (R51) -/

theorem opcodeField_append_addressField (w : Word) : opcodeField w ++ addressField w = w :=
  BitVec.extractLsb'_append_extractLsb' (w := 4) (len := 12)

theorem exists_eq_append (w : Word) : ∃ (op : Opcode) (a : Addr), w = op ++ a :=
  ⟨_, _, (opcodeField_append_addressField w).symm⟩

theorem toNat_append (op : Opcode) (a : Addr) : (op ++ a).toNat = op.toNat * 4096 + a.toNat := by
  rw [BitVec.toNat_append, ← Nat.shiftLeft_add_eq_or_of_lt a.isLt, Nat.shiftLeft_eq]

theorem toNat_append_div (op : Opcode) (a : Addr) : (op ++ a).toNat / 4096 = op.toNat := by
  rw [toNat_append]
  omega

theorem toNat_append_mod (op : Opcode) (a : Addr) : (op ++ a).toNat % 4096 = a.toNat := by
  rw [toNat_append]
  omega

/-- Clearing bits 11:0 of a word leaves its opcode. -/
theorem append_and_mask (op : Opcode) (a : Addr) : (op ++ a) &&& 0xF000#16 = op ++ 0#12 := by
  have hmask : 0xF000#16 = BitVec.allOnes 4 ++ 0#12 := by decide
  rw [hmask, BitVec.and_append, BitVec.and_allOnes, BitVec.and_zero]

/-! ## Instructions as pairs of a kind and an address (R54, R60) -/

@[simp] theorem kind_ofKind (k : Kind) (a : Addr) : (Instr.ofKind k a).kind = k := by
  cases k <;> rfl

@[simp] theorem address_ofKind (k : Kind) (a : Addr) :
    (Instr.ofKind k a).address = if k.isAddressKind then a else 0 := by
  cases k <;> rfl

theorem ofKind_kind_address (i : Instr) : Instr.ofKind i.kind i.address = i := by
  cases i <;> rfl

theorem eq_iff_kind_address (i j : Instr) : i = j ↔ i.kind = j.kind ∧ i.address = j.address := by
  refine ⟨fun h => h ▸ ⟨rfl, rfl⟩, fun ⟨hkind, haddr⟩ => ?_⟩
  rw [← ofKind_kind_address i, hkind, haddr, ofKind_kind_address]

/-- The type holds only well-formed instruction values (R57): a no-address kind has no address of its own. -/
theorem wellFormed_of_instr (i : Instr) : i.wellFormed = true := by
  cases i <;> rfl

theorem address_eq_zero {i : Instr} (h : i.kind.isAddressKind = false) : i.address = 0 := by
  simpa [Instr.wellFormed, Instr.value, InstrValue.wellFormed, h] using wellFormed_of_instr i

/-! ## The lookup table (R53) -/

theorem decoderTable_getElem? (op : Opcode) : decoderTable.toList[op.toNat]? = some (kindOfOpcode op) := by
  rw [Vector.getElem?_toList, Vector.getElem?_eq_getElem op.isLt, kindOfOpcode]

theorem kindOfOpcode_opcode (k : Kind) : kindOfOpcode k.opcode = k := by
  cases k <;> rfl

theorem kindOfOpcode_of_ge {op : Opcode} : 12 ≤ op.toNat → kindOfOpcode op = .nop := by
  decide +revert

theorem opcode_kindOfOpcode {op : Opcode} : op.toNat ≤ 12 → (kindOfOpcode op).opcode = op := by
  decide +revert

theorem isAddressKind_kindOfOpcode (op : Opcode) : (kindOfOpcode op).isAddressKind = decide (op.toNat ≤ 7) := by
  decide +revert

/-! ## Decode and encode (R55, R56) -/

theorem decode_append (op : Opcode) (a : Addr) : decode (op ++ a) = Instr.ofKind (kindOfOpcode op) a := by
  rw [decode, opcodeField_append, addressField_append]

theorem kind_decode_append (op : Opcode) (a : Addr) : (decode (op ++ a)).kind = kindOfOpcode op := by
  rw [decode_append, kind_ofKind]

theorem address_decode_append (op : Opcode) (a : Addr) :
    (decode (op ++ a)).address = if op.toNat ≤ 7 then a else 0 := by
  simp [decode_append, isAddressKind_kindOfOpcode]

theorem encodeKind_eq_append (k : Kind) (a : Int) :
    encodeKind k a = k.opcode ++ if k.isAddressKind then BitVec.ofInt 12 a else 0#12 := by
  rw [encodeKind]
  split <;> rfl

theorem encode_eq_append (i : Instr) : encode i = i.kind.opcode ++ i.address := by
  cases h : i.kind.isAddressKind with
  | true => exact encode_address h
  | false => exact address_eq_zero h ▸ encode_noAddress h

theorem decode_encode (i : Instr) : decode (encode i) = i := by
  rw [encode_eq_append, decode_append, kindOfOpcode_opcode, ofKind_kind_address]

theorem encode_decode_append (op : Opcode) (a : Addr) :
    encode (decode (op ++ a)) = (kindOfOpcode op).opcode ++ if op.toNat ≤ 7 then a else 0 := by
  rw [encode_eq_append, kind_decode_append, address_decode_append]

/-- Settles O1: a word is its two fields, of which `encode` after `decode` keeps both (opcodes 0 to 7), the opcode alone (8 to
11), or neither (12 to 15). -/
theorem decodeEncodeRoundTrip : Obligations.DecodeEncodeRoundTrip := by
  refine ⟨fun i _ => decode_encode i, fun w => ?_, fun w hlow hhigh => ?_⟩
  · obtain ⟨op, a, rfl⟩ := exists_eq_append w
    have hw := toNat_append op a
    rw [encode_decode_append]
    by_cases hop7 : op.toNat ≤ 7
    · rw [if_pos hop7, if_pos (by omega), opcode_kindOfOpcode (by omega)]
    rw [if_neg hop7, if_neg (by omega)]
    by_cases hop11 : op.toNat ≤ 11
    · rw [if_pos (by omega), opcode_kindOfOpcode (by omega), append_and_mask]
      rfl
    · rw [if_neg (by omega), kindOfOpcode_of_ge (by omega)]
      decide
  · obtain ⟨op, a, rfl⟩ := exists_eq_append w
    have hw := toNat_append op a
    rw [encode_decode_append, opcode_kindOfOpcode (by omega), if_neg (by omega), toNat_append_mod,
      BitVec.append_right_inj, eq_comm, ← BitVec.toNat_inj]
    rfl

/-- Settles O2: the word is the opcode before the 12-bit reduction of the address, or before 0. -/
theorem encodeIsOpcodeAndReducedAddress : Obligations.EncodeIsOpcodeAndReducedAddress := by
  intro k a
  rw [encodeKind_eq_append, toNat_append]
  split
  · rw [BitVec.toNat_ofInt]
    rfl
  · rfl

/-- Settles O3: the table's entry for the opcode field, and the address field where the kind has one. -/
theorem decodeReadsOpcodeAndAddress : Obligations.DecodeReadsOpcodeAndAddress := by
  intro w
  obtain ⟨op, a, rfl⟩ := exists_eq_append w
  rw [toNat_append_div, toNat_append_mod, kind_decode_append, address_decode_append]
  refine ⟨decoderTable_getElem? op, kindOfOpcode_of_ge, isAddressKind_kindOfOpcode op, ?_⟩
  split <;> rfl

/-- Settles O5: an instruction is its kind and its address, and the decoded address of a no-address kind is 0 for both words. -/
theorem equalInstructionsAreSameKindAndAddress : Obligations.EqualInstructionsAreSameKindAndAddress := by
  refine ⟨fun w x => ?_, by decide⟩
  obtain ⟨op, a, rfl⟩ := exists_eq_append w
  obtain ⟨op', b, rfl⟩ := exists_eq_append x
  rw [eq_iff_kind_address, toNat_append_mod, toNat_append_mod, BitVec.toNat_inj, decode_append, decode_append]
  simp only [kind_ofKind, address_ofKind]
  refine and_congr_right fun hkind => ?_
  rw [← hkind]
  cases (kindOfOpcode op).isAddressKind <;> simp

/-! ## The exported strings (R62) -/

theorem getElem?_hexDigits (d : BitVec 4) : "0123456789ABCDEF".toList[d.toNat]? = some (hexDigit d) := by
  decide +revert

/-- The assembler's literals read an exported digit as its value (R66). -/
theorem hexValue_hexDigit (d : BitVec 4) : hexValue (hexDigit d) = some d.toNat := by
  decide +revert

theorem toNat_nibble (w : Word) (n : Nat) : (w.extractLsb' n 4).toNat = w.toNat / 2 ^ n % 16 := by
  rw [BitVec.extractLsb'_toNat, Nat.shiftRight_eq_div_pow]

theorem toBinary_getElem? (w : Word) (p : Nat) :
    (toBinary w)[p]? = if p < 16 then some (if w.getLsbD (15 - p) then '1' else '0') else none := by
  rw [toBinary, List.getElem?_map]
  by_cases hp : p < 16
  · simp [hp, BitVec.getMsbD_eq_getLsbD]
  · simp [hp]

theorem toHex_getElem? (w : Word) (p : Nat) :
    (toHex w)[p]? = if p < 4 then "0123456789ABCDEF".toList[w.toNat / 16 ^ (3 - p) % 16]? else none := by
  have hdigit (n : Nat) : some (hexDigit (w.extractLsb' n 4)) = "0123456789ABCDEF".toList[w.toNat / 2 ^ n % 16]? := by
    rw [← toNat_nibble, getElem?_hexDigits]
  match p with
  | 0 => exact hdigit 12
  | 1 => exact hdigit 8
  | 2 => exact hdigit 4
  | 3 => exact hdigit 0
  | p + 4 => simp [toHex]

/-- The four nibbles of a word, read as the digits of a base-16 number, are its value. -/
theorem parseLiteral_toHex (w : Word) : parseLiteral ('$' :: toHex w) = some w.toNat := by
  have hparse : parseLiteral ('$' :: toHex w) = some ((((0 * 16 + (w.extractLsb' 12 4).toNat) * 16 +
      (w.extractLsb' 8 4).toNat) * 16 + (w.extractLsb' 4 4).toNat) * 16 + (w.extractLsb' 0 4).toNat) := by
    simp only [parseLiteral, toHex, parseNumber, numberFrom, hexValue_hexDigit]
  rw [hparse]
  simp only [toNat_nibble]
  congr 1
  omega

/-- Settles O9: position by position, then the hexadecimal string read back. -/
theorem exportStringsSpellTheWord : Obligations.ExportStringsSpellTheWord :=
  ⟨toBinary_getElem?, toHex_getElem?, parseLiteral_toHex, fun _ => ⟨rfl, rfl⟩, by decide⟩

end Sys2Proof.Laws
end

section
/-! SUPPORT and PROOFS. The assembler (spec/30_encoding.md section 5): what an assembly that gives an image comes from, line by
line. -/

namespace Sys2Proof.Machine

open Sys2Proof.Statement

theorem instructionLines_eq_length (ls : List Line) : instructionLines ls = (instructionsOf ls).length := by
  induction ls with
  | nil => rfl
  | cons l rest ih => cases l <;> simp [instructionLines, instructionsOf, ih]

/-- A text whose lines are read is assembled from those lines. -/
theorem assemble_of_parseLines {text : Text} {ls : List Line} (h : parseLines 1 (splitLines text) = .ok ls) :
    assemble text = assembleLines ls := by
  rw [assemble, h]

/-- What the result of an assembly holds: no name is bound twice, the image is the lines' writes, and no two of them name one
cell. -/
theorem assembleLines_ok {ls : List Line} {p : Assembled} (h : assembleLines ls = .ok p) :
    boundTwice (bindings 0 ls) = none ∧ emit (bindings 0 ls) 0 ls = .ok p.image ∧ Image.distinct p.image = true ∧
      p.maxPc = lastInstruction (instructionLines ls) := by
  unfold assembleLines at h
  split at h
  · cases h
  · rename_i hbound
    split at h
    · cases h
    · rename_i image himage
      split at h
      · rename_i hdistinct
        cases h
        exact ⟨hbound, himage, hdistinct, rfl⟩
      · cases h

theorem emit_instruction_ok {env : List (Text × Nat)} {here : Nat} {k : Kind} {o : Option Operand} {rest : List Line}
    {image : Image} (h : emit env here (.instruction k o :: rest) = .ok image) :
    ∃ n tail, operandValue env o = .ok n ∧ emit env (here + 1) rest = .ok tail ∧
      image = ⟨here, (encodeKind k n).toNat⟩ :: tail := by
  rw [emit] at h
  split at h
  · cases h
  · cases h
  · rename_i n tail hvalue htail
    cases h
    exact ⟨n, tail, hvalue, htail, rfl⟩

theorem emit_data_ok {env : List (Text × Nat)} {here a v : Nat} {rest : List Line} {image : Image}
    (h : emit env here (.data a v :: rest) = .ok image) :
    ∃ tail, emit env here rest = .ok tail ∧ image = ⟨a, (v % 65536 : Nat)⟩ :: tail := by
  rw [emit] at h
  split at h
  · cases h
  · rename_i tail htail
    cases h
    exact ⟨tail, htail, rfl⟩

/-- The k-th instruction line is placed k cells after the first (R70). -/
theorem emit_places_instruction {env : List (Text × Nat)} {ls : List Line} {here k : Nat} {image : Image} {kind : Kind}
    {o : Option Operand} (h : emit env here ls = .ok image) (hk : (instructionsOf ls)[k]? = some (kind, o)) :
    ∃ n, operandValue env o = .ok n ∧ ⟨(here + k : Nat), (encodeKind kind n).toNat⟩ ∈ image := by
  induction ls generalizing here k image with
  | nil => nomatch hk
  | cons l rest ih =>
    cases l with
    | blank | constant _ _ | label _ => exact ih h hk
    | data a v =>
      obtain ⟨tail, htail, rfl⟩ := emit_data_ok h
      obtain ⟨n, hvalue, hmem⟩ := ih htail hk
      exact ⟨n, hvalue, .tail _ hmem⟩
    | instruction k' o' =>
      obtain ⟨n, tail, hvalue, htail, rfl⟩ := emit_instruction_ok h
      cases k with
      | zero =>
        cases hk
        exact ⟨n, hvalue, .head _⟩
      | succ k =>
        obtain ⟨m, hvalue', hmem⟩ := ih htail hk
        exact ⟨m, hvalue', .tail _ (by rwa [Nat.add_right_comm] at hmem)⟩

/-- Settles O55: the lines' writes place the instructions in order from address 0, and as many are counted for `max_pc`. -/
theorem instructionLinesArePlacedInOrder : Obligations.InstructionLinesArePlacedInOrder := by
  intro text ls p hparse hp
  rw [assemble_of_parseLines hparse] at hp
  obtain ⟨-, himage, -, hmaxPc⟩ := assembleLines_ok hp
  refine ⟨?_, fun k kind o hk => ?_⟩
  · rw [hmaxPc, instructionLines_eq_length, lastInstruction]
    simp only [List.length_eq_zero_iff]
  · simpa using emit_places_instruction himage hk

end Sys2Proof.Machine
end

section
/-! SUPPORT and PROOFS. The cycle (spec/40_cycle.md): an equation for each case of FIRST, SECOND and STEP, what an execute step
does to `pc` and the latch, that the limit register gates nothing, and one turn of RUN. -/

namespace Sys2Proof.Machine

open Sys2Proof.Statement

/-! ## FIRST (R81) -/

theorem first_of_halted {s : State} {r : FaultRecord} (hfault : s.fault = some r) : first s = .fault (.halted r) := by
  simp only [first, hfault]

theorem first_of_firstPhaseDone {s : State} (hfault : s.fault = none) (hphase : s.phase = .firstPhaseDone) :
    first s = .refused .stepSequenceError := by
  simp only [first, hfault, hphase]

theorem first_of_inRange {s : State} (hfault : s.fault = none) (hphase : s.phase = .idle)
    (hpc : s.pc.toNat < s.memSize) : first s =
      .next (endFirst (execState (decode (s.cell s.pc)) { s with ir := some (decode (s.cell s.pc)) })) := by
  simp only [first, hfault, hphase, State.memRead_ok hpc, executeWord_eq]

theorem State.ready_iff (s : State) :
    s.ready = true ↔ s.fault = none ∧ s.phase = .idle ∧ s.pc.toNat < s.memSize := by
  simp [State.ready, State.inRange, and_assoc]

/-- A FIRST that answers a next state started idle and without a fault, and either its fetch failed or it executed the word. -/
theorem first_next {s t : State} (h : first s = .next t) :
    s.fault = none ∧ s.phase = .idle ∧
      (s.memSize ≤ s.pc.toNat ∧ t = s.raise ⟨.fetchOutOfRange, s.pc⟩ ∨
        s.pc.toNat < s.memSize ∧
          t = endFirst (execState (decode (s.cell s.pc)) { s with ir := some (decode (s.cell s.pc)) })) := by
  rcases first_cases s with ⟨_, _, hs⟩ | ⟨_, _, hs⟩ | ⟨hfault, hphase, hpc, hs⟩ | ⟨hfault, hphase, hpc, hs⟩ <;>
    rw [hs] at h <;> cases h
  · exact ⟨hfault, hphase, .inl ⟨hpc, rfl⟩⟩
  · exact ⟨hfault, hphase, .inr ⟨hpc, rfl⟩⟩

theorem exists_first_next {s : State} (hfault : s.fault = none) (hphase : s.phase = .idle) :
    ∃ t, first s = .next t := by
  rcases Nat.lt_or_ge s.pc.toNat s.memSize with hpc | hpc
  · exact ⟨_, first_of_inRange hfault hphase hpc⟩
  · exact ⟨_, first_fetchOutOfRange hfault hphase hpc⟩

theorem first_ok_phase {s t : State} (h : first s = .next t) (ht : t.fault = none) : t.phase = .firstPhaseDone := by
  obtain ⟨-, -, ⟨-, rfl⟩ | ⟨-, rfl⟩⟩ := first_next h
  · nomatch ht
  · rw [endFirst_fault] at ht
    rw [endFirst_of_none ht]

/-! ## The execute step, `pc` and the latch (R86) -/

/-- An operand read raises an error or goes on with the value of a cell. -/
theorem withOperand_cases {a : Addr} {s t : State} {k : Word → State} (h : withOperand a s k = .next t) :
    (∃ r, t = s.raise r) ∨ ∃ m, t = k m := by
  rw [withOperand_eq] at h
  cases h
  split
  · exact .inr ⟨_, rfl⟩
  · exact .inl ⟨_, rfl⟩

/-- An execute step raises an error and does nothing else, or it keeps the fault register, moves `pc` for a taken branch only,
and writes into the latch whether it was one. -/
theorem exec_cases {i : Instr} {s t : State} (h : exec i s = .next t) :
    (∃ r, t = s.raise r) ∨
      t.fault = s.fault ∧ t.pc = (if takenBranch i s then i.address else s.pc) ∧ t.brTaken = takenBranch i s := by
  cases i with
  | sto a =>
    rw [exec, execSto_eq] at h
    cases h
    split
    · exact .inr ⟨rfl, rfl, rfl⟩
    · exact .inl ⟨_, rfl⟩
  | brz a =>
    have htaken : takenBranch (.brz a) s = s.accIsZero := rfl
    rw [exec, execBrz] at h
    rw [htaken]
    split at h <;> rename_i hzero <;> cases h
    · exact .inr ⟨rfl, (if_pos hzero).symm, hzero.symm⟩
    · exact .inr ⟨rfl, (if_neg hzero).symm, (Bool.eq_false_of_not_eq_true hzero).symm⟩
  | lda a | add a | sub a | or a | and a | xor a =>
    obtain hraise | ⟨m, rfl⟩ := withOperand_cases h
    · exact .inl hraise
    · exact .inr ⟨rfl, rfl, rfl⟩
  | not | inc | dec | zro | nop =>
    cases h
    exact .inr ⟨rfl, rfl, rfl⟩

/-- The error a FIRST records is the only change, but for `ir` when it is the execute step's (spec/60_exceptions.md R163). -/
theorem first_error {s t : State} {r : FaultRecord} (h : first s = .next t) (ht : t.fault = some r) :
    t = s.raise r ∨ t = State.raise { s with ir := some (decode (s.cell s.pc)) } r := by
  obtain ⟨hfault, -, ⟨-, rfl⟩ | ⟨-, rfl⟩⟩ := first_next h
  · cases ht
    exact .inl rfl
  · rw [endFirst_fault] at ht
    rw [endFirst_of_some ht]
    obtain ⟨r', hraise⟩ | ⟨hkeep, -, -⟩ := exec_cases (exec_next _ _)
    · rw [hraise] at ht ⊢
      cases ht
      exact .inr rfl
    · rw [hkeep, hfault] at ht
      nomatch ht

/-- Settles O31: the four cases of FIRST in the order of its checks; in the last, the execute step says what happens to `pc`. -/
theorem firstFetchesDecodesExecutes : Obligations.FirstFetchesDecodesExecutes := by
  refine fun s => ⟨fun _ => first_of_halted, first_of_firstPhaseDone, first_fetchOutOfRange, fun hready => ?_⟩
  obtain ⟨hfault, hphase, hpc⟩ := s.ready_iff.1 hready
  have hexec := exec_next (decode (s.cell s.pc)) { s with ir := some (decode (s.cell s.pc)) }
  refine ⟨_, hexec, fun hnone => ?_, fun hsome => ?_⟩ <;> rw [first_of_inRange hfault hphase hpc]
  · rw [endFirst_of_none hnone]
    obtain ⟨r, hraise⟩ | ⟨-, hmove⟩ := exec_cases hexec
    · rw [hraise] at hnone
      nomatch hnone
    · exact ⟨rfl, hmove⟩
  · obtain ⟨r, hr⟩ := Option.ne_none_iff_exists'.1 hsome
    rw [endFirst_of_some hr]

/-! ## SECOND (R82) -/

theorem second_of_halted {s : State} {r : FaultRecord} (hfault : s.fault = some r) : second s = .fault (.halted r) := by
  simp only [second, hfault]

theorem second_of_idle {s : State} (hfault : s.fault = none) (hphase : s.phase = .idle) :
    second s = .refused .stepSequenceError := by
  simp only [second, hfault, hphase]

theorem second_of_firstPhaseDone {s : State} (hfault : s.fault = none) (hphase : s.phase = .firstPhaseDone) :
    second s = .next (commit s) := by
  simp only [second, hfault, hphase]

theorem addr_add_one (a : Addr) : a + 1 = BitVec.ofNat 12 ((a.toNat + 1) % 4096) := by
  apply BitVec.eq_of_toNat_eq
  simp

/-- Settles O32: the three cases of SECOND, the last for both values of the latch. -/
theorem secondCommits : Obligations.SecondCommits := by
  refine fun s => ⟨fun _ => second_of_halted, second_of_idle, fun hfault hphase hlatch => ?_,
    fun hfault hphase hlatch => ?_⟩ <;> rw [second_of_firstPhaseDone hfault hphase]
  · simp [commit, hlatch]
  · rw [← addr_add_one]
    simp [commit, hlatch]

/-! ## STEP (R83) -/

theorem step_of_first_ok {s t : State} (h : first s = .next t) (ht : t.fault = none) : step s = second t := by
  simp only [step, wholeStep, h, ht]

theorem step_of_first_error {s t : State} {r : FaultRecord} (h : first s = .next t) (ht : t.fault = some r) :
    step s = .next t := by
  simp only [step, wholeStep, h, ht]

theorem step_of_firstPhaseDone {s : State} (hfault : s.fault = none) (hphase : s.phase = .firstPhaseDone) :
    step s = .refused .stepSequenceError := by
  simp only [step, wholeStep, first_of_firstPhaseDone hfault hphase]

/-- A FIRST that ended Ok left the phase in which SECOND commits, so STEP is that commit. -/
theorem step_eq_commit {s t : State} (h : first s = .next t) (ht : t.fault = none) : step s = .next (commit t) := by
  rw [step_of_first_ok h ht, second_of_firstPhaseDone ht (first_ok_phase h ht)]

/-- Settles O33: the phase after an Ok FIRST admits SECOND, and a recorded error is the only change beside `ir`. -/
theorem stepComposesBothPhases : Obligations.StepComposesBothPhases := by
  refine fun s => ⟨step_of_firstPhaseDone, fun t h ht => ?_, fun t h ht => ?_⟩
  · exact ⟨step_of_first_ok h ht, commit t, second_of_firstPhaseDone ht (first_ok_phase h ht), rfl, rfl⟩
  · obtain ⟨r, hr⟩ := Option.ne_none_iff_exists'.1 ht
    refine ⟨step_of_first_error h hr, ?_⟩
    obtain rfl | rfl := first_error h hr <;> exact ⟨rfl, rfl, rfl⟩

/-! ## The limit register gates nothing (R84) -/

/-- The state with another limit register. -/
def State.withMaxPc (s : State) (m : Option Addr) : State := { s with maxPc := m }

theorem withOperand_withMaxPc {a : Addr} {s t : State} {k k' : Word → State} (m : Option Addr)
    (hk : ∀ w, k' w = (k w).withMaxPc m) (h : withOperand a s k = .next t) :
    withOperand a (s.withMaxPc m) k' = .next (t.withMaxPc m) := by
  rw [withOperand_eq] at h ⊢
  cases h
  rw [hk, apply_ite (State.withMaxPc · m)]
  rfl

theorem exec_withMaxPc {i : Instr} {s t : State} (m : Option Addr) (h : exec i s = .next t) :
    exec i (s.withMaxPc m) = .next (t.withMaxPc m) := by
  cases i with
  | sto a =>
    rw [exec, execSto_eq] at h ⊢
    cases h
    rw [apply_ite (State.withMaxPc · m)]
    rfl
  | brz a =>
    have hzero : (s.withMaxPc m).accIsZero = s.accIsZero := rfl
    rw [exec, execBrz] at h ⊢
    rw [hzero]
    cases hz : s.accIsZero <;> rw [hz] at h <;> cases h <;> rfl
  | lda a | add a | sub a | or a | and a | xor a => exact withOperand_withMaxPc m (fun _ => rfl) h
  | not | inc | dec | zro | nop =>
    cases h
    rfl

theorem execState_withMaxPc (i : Instr) (s : State) (m : Option Addr) :
    execState i (s.withMaxPc m) = (execState i s).withMaxPc m := by
  have h := exec_withMaxPc m (exec_next i s)
  rw [exec_next] at h
  exact Host.Outcome.next.inj h

theorem endFirst_withMaxPc (s : State) (m : Option Addr) : endFirst (s.withMaxPc m) = (endFirst s).withMaxPc m := by
  rcases s.fault_cases with hfault | ⟨r, hfault⟩
  · rw [endFirst_of_none hfault, endFirst_of_none (s := s.withMaxPc m) hfault]
    rfl
  · rw [endFirst_of_some hfault, endFirst_of_some (s := s.withMaxPc m) hfault]

theorem first_withMaxPc {s t : State} (m : Option Addr) (h : first s = .next t) :
    first (s.withMaxPc m) = .next (t.withMaxPc m) := by
  obtain ⟨hfault, hphase, ⟨hpc, rfl⟩ | ⟨hpc, rfl⟩⟩ := first_next h
  · exact first_fetchOutOfRange (s := s.withMaxPc m) hfault hphase hpc
  · rw [← endFirst_withMaxPc, ← execState_withMaxPc]
    exact first_of_inRange (s := s.withMaxPc m) hfault hphase hpc

theorem second_withMaxPc {s t : State} (m : Option Addr) (h : second s = .next t) :
    second (s.withMaxPc m) = .next (t.withMaxPc m) := by
  rcases second_cases s with ⟨_, _, hs⟩ | ⟨_, _, hs⟩ | ⟨hfault, hphase, hs⟩ <;> rw [hs] at h <;> cases h
  exact second_of_firstPhaseDone (s := s.withMaxPc m) hfault hphase

theorem step_withMaxPc {s t : State} (m : Option Addr) (h : step s = .next t) :
    step (s.withMaxPc m) = .next (t.withMaxPc m) := by
  obtain ⟨u, hfirst, ⟨r, hr, rfl⟩ | ⟨hnone, -, rfl⟩⟩ := step_cases h
  · exact step_of_first_error (first_withMaxPc m hfirst) hr
  · exact step_eq_commit (first_withMaxPc m hfirst) hnone

theorem State.done_iff (s : State) :
    s.done = true ↔ s.maxPc = none ∨ ∃ m, s.maxPc = some m ∧ m.toNat < s.pc.toNat := by
  cases h : s.maxPc <;> simp [State.done, h]

/-- Settles O36: `done` is the comparison, no 12-bit `pc` exceeds 4095, and each phase commutes with a change of the limit. -/
theorem doneComparesAndDoesNotGate : Obligations.DoneComparesAndDoesNotGate := by
  refine ⟨State.done_iff, fun s hmax => ?_, fun s t m => ⟨first_withMaxPc m, second_withMaxPc m, step_withMaxPc m⟩⟩
  have hpc : s.pc.toNat ≤ 4095 := Nat.le_of_lt_succ s.pc.isLt
  simpa [State.done, hmax] using hpc

/-! ## RUN (R85) -/

theorem run_of_notHalted {s : State} (fuel : Nat) (hfault : s.fault = none) : run fuel s = runLoop fuel s := by
  simp only [run, hfault]

theorem runLoop_of_done {s : State} (fuel : Nat) (hdone : s.done = true) : runLoop fuel s = .ended .ok s := by
  cases fuel <;> simp only [runLoop, hdone, if_true]

theorem runLoop_zero {s : State} (hdone : s.done = false) : runLoop 0 s = .running := by
  simp [runLoop, hdone]

theorem runLoop_of_step_ok {s t : State} (fuel : Nat) (hdone : s.done = false)
    (h : answer s (step s) = .ended .ok t) : runLoop (fuel + 1) s = runLoop fuel t := by
  rw [step] at h
  simp [runLoop, hdone, h]

theorem runLoop_of_step_not_ok {s t : State} {r : Reply} (fuel : Nat) (hdone : s.done = false) (hr : r ≠ .ok)
    (h : answer s (step s) = .ended r t) : runLoop (fuel + 1) s = .ended r t := by
  rw [step] at h
  cases r with
  | ok => exact absurd rfl hr
  | stepSequenceError | memoryAddressError | halted => simp [runLoop, hdone, h]

theorem answer_next_of_none {s t : State} (ht : t.fault = none) : answer s (.next t) = .ended .ok t := by
  simp only [answer, ht]

theorem answer_next_of_some {s t : State} {r : FaultRecord} (ht : t.fault = some r) :
    answer s (.next t) = .ended .memoryAddressError t := by
  simp only [answer, ht]

/-- The three ways a STEP ends in a core that is not halted; after an Ok one the core is again idle and not halted. -/
theorem answer_step_cases {s : State} (hfault : s.fault = none) :
    (s.phase = .firstPhaseDone ∧ answer s (step s) = .ended .stepSequenceError s) ∨
    (∃ t, answer s (step s) = .ended .memoryAddressError t) ∨
    (∃ t, t.fault = none ∧ t.phase = .idle ∧ answer s (step s) = .ended .ok t) := by
  rcases s.phase_cases with hphase | hphase
  · obtain ⟨u, hfirst⟩ := exists_first_next hfault hphase
    rcases u.fault_cases with hu | ⟨r, hu⟩
    · rw [step_eq_commit hfirst hu]
      exact .inr (.inr ⟨commit u, hu, rfl, answer_next_of_none hu⟩)
    · rw [step_of_first_error hfirst hu]
      exact .inr (.inl ⟨u, answer_next_of_some hu⟩)
  · rw [step_of_firstPhaseDone hfault hphase]
    exact .inl ⟨hphase, rfl⟩

theorem fault_of_step_ok {s t : State} (hfault : s.fault = none) (h : answer s (step s) = .ended .ok t) :
    t.fault = none := by
  rcases answer_step_cases hfault with ⟨_, hs⟩ | ⟨_, hs⟩ | ⟨u, hu, _, hs⟩ <;> rw [hs] at h <;> cases h
  exact hu

theorem done_eq_false_of_runLoop_not_ok {fuel : Nat} {s t : State} {r : Reply} (h : runLoop fuel s = .ended r t)
    (hr : r ≠ .ok) : s.done = false := by
  refine Bool.eq_false_iff.2 fun hdone => ?_
  rw [runLoop_of_done fuel hdone] at h
  cases h
  exact hr rfl

/-- By induction on the fuel: a turn that is not the last leaves the core idle, so only the first STEP can be out of sequence. -/
theorem runLoop_ended_not_ok {fuel : Nat} {s t : State} {r : Reply} (hfault : s.fault = none)
    (h : runLoop fuel s = .ended r t) (hr : r ≠ .ok) :
    r = .memoryAddressError ∨ r = .stepSequenceError ∧ s.phase = .firstPhaseDone ∧ s.done = false := by
  induction fuel generalizing s with
  | zero =>
    rw [runLoop_zero (done_eq_false_of_runLoop_not_ok h hr)] at h
    nomatch h
  | succ fuel ih =>
    have hdone := done_eq_false_of_runLoop_not_ok h hr
    rcases answer_step_cases hfault with ⟨hphase, hs⟩ | ⟨u, hs⟩ | ⟨u, hu, hidle, hs⟩
    · rw [runLoop_of_step_not_ok fuel hdone (by decide) hs] at h
      cases h
      exact .inr ⟨rfl, hphase, hdone⟩
    · rw [runLoop_of_step_not_ok fuel hdone (by decide) hs] at h
      cases h
      exact .inl rfl
    · rw [runLoop_of_step_ok fuel hdone hs] at h
      obtain hmem | ⟨-, hphase, -⟩ := ih hu h
      · exact .inl hmem
      · rw [hidle] at hphase
        nomatch hphase

/-- Settles O37: each turn of the loop by what its STEP ends with, and the possible endings by induction on the turns. -/
theorem runLoopsStepUntilDone : Obligations.RunLoopsStepUntilDone := by
  intro s fuel hfault
  simp only [run_of_notHalted _ hfault]
  refine ⟨runLoop_of_done fuel, runLoop_zero, fun t hdone h => ?_, fun r t hdone hr h => ?_,
    fun r t h hr => runLoop_ended_not_ok hfault h hr⟩
  · rw [run_of_notHalted _ (fault_of_step_ok hfault h)]
    exact runLoop_of_step_ok fuel hdone h
  · exact runLoop_of_step_not_ok fuel hdone hr h

end Sys2Proof.Machine
end

section
/-! SUPPORT and PROOFS. STO and LDA (spec/41_transfer.md). First what every instruction's statement needs: the number of its word,
and a whole instruction that ends without a fault and without a taken branch; then the two instructions. -/

namespace Sys2Proof.Machine

open Sys2Proof.Statement Sys2Proof.Laws

/-! ## A word's number and a whole instruction -/

theorem toNat_encode (i : Instr) : (encode i).toNat = i.kind.opcode.toNat * 4096 + i.address.toNat := by
  rw [encode_eq_append, toNat_append]

theorem withOperand_inRange {a : Addr} {s : State} {k : Word → State} (h : a.toNat < s.memSize) :
    withOperand a s k = .next (k (s.cell a)) := by
  rw [withOperand_eq, if_pos h]

theorem fetches_iff (s : State) (i : Instr) :
    fetches s i ↔ s.fault = none ∧ s.phase = .idle ∧ s.pc.toNat < s.memSize ∧ decode (s.cell s.pc) = i := by
  rw [fetches, s.ready_iff, and_assoc, and_assoc]

theorem first_of_fetches {s t : State} {i : Instr} (hfetch : fetches s i)
    (hexec : exec i { s with ir := some i } = .next t) : first s = .next (endFirst t) := by
  obtain ⟨hfault, hphase, hpc, rfl⟩ := (fetches_iff s i).1 hfetch
  rw [exec_next] at hexec
  rw [first_of_inRange hfault hphase hpc, Host.Outcome.next.inj hexec]

/-- SECOND sets the phase itself, so the one FIRST ended in does not show. -/
theorem commit_endFirst {s : State} (hfault : s.fault = none) : commit (endFirst s) = commit s := by
  rw [endFirst_of_none hfault]
  rfl

theorem commit_of_idle {s : State} (hlatch : s.brTaken = false) (hphase : s.phase = .idle) : commit s = retired s := by
  simp [commit, retired, hlatch, hphase]

/-- An execute step that raises no error and takes no branch is retired by the second phase (R82, R83). -/
theorem step_eq_retired {s t : State} {i : Instr} (hfetch : fetches s i)
    (hexec : exec i { s with ir := some i } = .next t) (hkeep : t.fault = s.fault) (hlatch : t.brTaken = false) :
    step s = .next (retired t) := by
  obtain ⟨hfault, hphase, -⟩ := (fetches_iff s i).1 hfetch
  have hnone : t.fault = none := hkeep.trans hfault
  have hidle : t.phase = .idle := (exec_frame hexec).phase.trans hphase
  rw [step_eq_commit (first_of_fetches hfetch hexec) ((endFirst_fault t).trans hnone), commit_endFirst hnone,
    commit_of_idle hlatch hidle]

/-! ## STO (R100) -/

theorem exec_sto_inRange {a : Addr} {s : State} (h : a.toNat < s.memSize) :
    exec (.sto a) s = .next { s with mem := s.mem.poke a.toNat s.acc, brTaken := false, snapshot := {} } := by
  rw [exec, execSto_eq, if_pos h]
  rfl

theorem exec_sto_outOfRange {a : Addr} {s : State} (h : s.memSize ≤ a.toNat) :
    exec (.sto a) s = .next (s.raise ⟨.storeOutOfRange, a⟩) := by
  rw [exec, execSto_eq, if_neg (Nat.not_lt.2 h)]

/-- Settles O17: the two sides of the bounds check, the read of a cell just written, and the store retired as a whole step. -/
theorem stoStoresTheAccumulator : Obligations.StoStoresTheAccumulator := by
  refine fun a s => ⟨?_, exec_sto_inRange, exec_sto_outOfRange, Memory.peek_poke_same _ _, fun hfetch ha => ?_⟩
  · simp [toNat_encode, Instr.kind, Kind.opcode, Instr.address]
  · exact step_eq_retired hfetch (exec_sto_inRange ha) rfl rfl

/-! ## LDA (R101) -/

theorem exec_lda_inRange {a : Addr} {s : State} (h : a.toNat < s.memSize) :
    exec (.lda a) s =
      .next { s with acc := s.cell a, brTaken := false, snapshot := { memRead := some (s.cell a) } } :=
  withOperand_inRange h

theorem exec_lda_outOfRange {a : Addr} {s : State} (h : s.memSize ≤ a.toNat) :
    exec (.lda a) s = .next (s.raise ⟨.loadOutOfRange, a⟩) :=
  withOperand_outOfRange h

/-- Settles O18: the two sides of the bounds check, and the load retired as a whole step. -/
theorem ldaLoadsTheCell : Obligations.LdaLoadsTheCell := by
  refine fun a s => ⟨?_, exec_lda_inRange, exec_lda_outOfRange, fun hfetch ha => ?_⟩
  · simp [toNat_encode, Instr.kind, Kind.opcode, Instr.address]
  · exact step_eq_retired hfetch (exec_lda_inRange ha) rfl rfl

end Sys2Proof.Machine
end

section
/-! SUPPORT and PROOFS. BRZ (spec/42_branch.md): the two sides of its condition, and a taken branch as a whole instruction. -/

namespace Sys2Proof.Machine

open Sys2Proof.Statement

theorem State.accIsZero_iff (s : State) : s.accIsZero = true ↔ s.acc = 0 :=
  decide_eq_true_iff

theorem exec_brz_taken {s : State} (a : Addr) (h : s.acc = 0) :
    exec (.brz a) s = .next { s with
      pc := a, branchCount := s.branchCount + 1, brTaken := true, snapshot := { branchTaken := some true } } := by
  rw [exec, execBrz, if_pos (s.accIsZero_iff.2 h)]
  rfl

theorem exec_brz_notTaken {s : State} (a : Addr) (h : s.acc ≠ 0) :
    exec (.brz a) s = .next { s with brTaken := false, snapshot := { branchTaken := some false } } := by
  rw [exec, execBrz, if_neg (mt s.accIsZero_iff.1 h)]
  rfl

/-- The second phase leaves the `pc` of a taken branch alone (R82). -/
theorem commit_of_taken {s : State} (hlatch : s.brTaken = true) (hphase : s.phase = .idle) :
    commit s = { s with ir := none, instructionCount := s.instructionCount + 1, cycles := s.cycles + 1 } := by
  simp [commit, hlatch, hphase]

/-- An execute step that takes a branch is committed by the second phase with the `pc` it set (R82, R83). -/
theorem step_of_taken {s t : State} {i : Instr} (hfetch : fetches s i)
    (hexec : exec i { s with ir := some i } = .next t) (hkeep : t.fault = s.fault) (hlatch : t.brTaken = true) :
    step s = .next { t with ir := none, instructionCount := t.instructionCount + 1, cycles := t.cycles + 1 } := by
  obtain ⟨hfault, hphase, -⟩ := (fetches_iff s i).1 hfetch
  have hnone : t.fault = none := hkeep.trans hfault
  have hidle : t.phase = .idle := (exec_frame hexec).phase.trans hphase
  rw [step_eq_commit (first_of_fetches hfetch hexec) ((endFirst_fault t).trans hnone), commit_endFirst hnone,
    commit_of_taken hlatch hidle]

/-- Settles O19: the two sides of the condition; a taken branch is committed with its target as `pc`, and one not taken is
retired as every other instruction is. -/
theorem brzBranchesOnZero : Obligations.BrzBranchesOnZero := by
  refine fun a s => ⟨?_, exec_brz_taken a, exec_brz_notTaken a, fun hfetch hzero => ?_, fun hfetch hzero => ?_⟩
  · simp [toNat_encode, Instr.kind, Kind.opcode, Instr.address]
  · exact step_of_taken hfetch (exec_brz_taken a hzero) rfl rfl
  · exact step_eq_retired hfetch (exec_brz_notTaken a hzero) rfl rfl

end Sys2Proof.Machine
end

section
/-! SUPPORT and PROOFS. The ALU (spec/43_alu_memory.md R120): each operation's result as a number or bit by bit. Then ADD, SUB, OR,
AND and XOR, which share everything but that result (section 2). -/

namespace Sys2Proof.Machine

open Sys2Proof.Statement

/-! ## The ALU's results (R120, R126) -/

theorem alu_add (a b : Word) : alu .add a b = BitVec.ofNat 16 (a.toNat + b.toNat) :=
  BitVec.add_def a b

theorem alu_sub (a b : Word) : alu .sub a b = BitVec.ofInt 16 ((a.toNat : Int) - (b.toNat : Int)) := by
  refine BitVec.eq_of_toNat_eq ?_
  rw [alu, BitVec.toNat_sub, BitVec.toNat_ofInt]
  omega

theorem alu_not (a b : Word) : alu .not a b = BitVec.ofNat 16 (65535 - a.toNat) := by
  refine BitVec.eq_of_toNat_eq ?_
  rw [alu, BitVec.toNat_not, BitVec.toNat_ofNat]
  omega

theorem alu_inc (a b : Word) : alu .inc a b = BitVec.ofNat 16 (a.toNat + 1) :=
  alu_add a 1

theorem alu_dec (a b : Word) : alu .dec a b = BitVec.ofInt 16 ((a.toNat : Int) - 1) :=
  alu_sub a 1

theorem getLsbD_alu_or (a b : Word) (n : Nat) : (alu .or a b).getLsbD n = (a.getLsbD n || b.getLsbD n) :=
  BitVec.getLsbD_or

theorem getLsbD_alu_and (a b : Word) (n : Nat) : (alu .and a b).getLsbD n = (a.getLsbD n && b.getLsbD n) :=
  BitVec.getLsbD_and

theorem getLsbD_alu_xor (a b : Word) (n : Nat) : (alu .xor a b).getLsbD n = (a.getLsbD n ^^ b.getLsbD n) :=
  BitVec.getLsbD_xor

theorem toNat_ofInt_word (k : Int) : ((BitVec.ofInt 16 k).toNat : Int) = k % 65536 := by
  rw [BitVec.toNat_ofInt]
  omega

/-- Settles O27: the equation of each operation, its reduction to 16 bits read in the integers. -/
theorem aluTable : Obligations.AluTable := by
  refine fun a b => ⟨?_, ?_, getLsbD_alu_or a b, getLsbD_alu_and a b, getLsbD_alu_xor a b, ?_, ?_, ?_, rfl⟩
  · rw [alu_add, BitVec.toNat_ofNat]
  · rw [alu_sub, toNat_ofInt_word]
  · rw [alu_not, BitVec.toNat_ofNat, Nat.mod_eq_of_lt (by omega)]
  · rw [alu_inc, BitVec.toNat_ofNat]
  · rw [alu_dec, toNat_ofInt_word]

/-! ## The kinds with a memory operand (R121 to R125) -/

theorem aluWithMemory_inRange {o : AluOp} {a : Addr} {s : State} (h : a.toNat < s.memSize) :
    aluWithMemory o a s = .next { s with
      acc := alu o s.acc (s.cell a)
      brTaken := false
      snapshot :=
        { accOld := some s.acc, aluResult := some (alu o s.acc (s.cell a)), memRead := some (s.cell a) } } :=
  withOperand_inRange h

/-- The kind of opcode number `op` that runs the ALU operation `o` on the cell at its address follows the common rule with every
description `f` of that operation's results. -/
theorem memoryOperandRule_of_alu {i : Addr → Instr} {op : Nat} {o : AluOp} {f : Word → Word → Word}
    (hopcode : ∀ a, (i a).kind.opcode.toNat = op) (haddress : ∀ a, (i a).address = a)
    (hexec : ∀ a s, exec (i a) s = aluWithMemory o a s) (hresult : ∀ x m, alu o x m = f x m) :
    memoryOperandRule i op f := by
  obtain rfl : alu o = f := funext₂ hresult
  have hinRange {a : Addr} {s : State} (ha : a.toNat < s.memSize) := (hexec a s).trans (aluWithMemory_inRange ha)
  refine fun a s => ⟨?_, hinRange, fun ha => (hexec a s).trans (withOperand_outOfRange ha), fun hfetch ha => ?_⟩
  · rw [toNat_encode, hopcode, haddress]
  · exact step_eq_retired hfetch (hinRange ha) rfl rfl

/-- Settles O20: the sum's equation in the common rule. -/
theorem addWrapsModulo65536 : Obligations.AddWrapsModulo65536 :=
  memoryOperandRule_of_alu (fun _ => rfl) (fun _ => rfl) (fun _ _ => rfl) alu_add

/-- Settles O21: the difference's equation in the common rule. -/
theorem subSubtractsTheCell : Obligations.SubSubtractsTheCell :=
  memoryOperandRule_of_alu (fun _ => rfl) (fun _ => rfl) (fun _ _ => rfl) alu_sub

theorem eq_ofFnLE_of_getLsbD {x : Word} {f : Fin 16 → Bool} (h : ∀ n : Fin 16, x.getLsbD n = f n) :
    x = BitVec.ofFnLE f := by
  refine BitVec.eq_of_getLsbD_eq fun n hn => ?_
  rw [BitVec.getLsbD_ofFnLE, dif_pos hn]
  exact h ⟨n, hn⟩

/-- Settles O22: the bits of each result in the common rule. -/
theorem logicalOperationsActBitByBit : Obligations.LogicalOperationsActBitByBit := by
  refine ⟨memoryOperandRule_of_alu (o := .or) (fun _ => rfl) (fun _ => rfl) (fun _ _ => rfl) fun x m => ?_,
    memoryOperandRule_of_alu (o := .and) (fun _ => rfl) (fun _ => rfl) (fun _ _ => rfl) fun x m => ?_,
    memoryOperandRule_of_alu (o := .xor) (fun _ => rfl) (fun _ => rfl) (fun _ _ => rfl) fun x m => ?_⟩
  · exact eq_ofFnLE_of_getLsbD fun n => getLsbD_alu_or x m n
  · exact eq_ofFnLE_of_getLsbD fun n => getLsbD_alu_and x m n
  · exact eq_ofFnLE_of_getLsbD fun n => getLsbD_alu_xor x m n

end Sys2Proof.Machine
end

section
/-! SUPPORT and PROOFS. NOT, INC, DEC and ZRO (spec/44_alu_accumulator.md): the four kinds with no address that run an ALU operation
on the accumulator, and share everything but its result. -/

namespace Sys2Proof.Machine

open Sys2Proof.Statement Sys2Proof.Laws

/-- Every word with the opcode number of a no-address kind decodes to its one instruction (R55). -/
theorem decode_of_noAddress {i : Instr} {w : Word} (hkind : i.kind.isAddressKind = false)
    (hw : w.toNat / 4096 = i.kind.opcode.toNat) : decode w = i := by
  obtain ⟨op, a, rfl⟩ := exists_eq_append w
  obtain rfl : op = i.kind.opcode := BitVec.eq_of_toNat_eq ((toNat_append_div op a).symm.trans hw)
  rw [decode_append, kindOfOpcode_opcode, eq_iff_kind_address, kind_ofKind, address_ofKind, hkind]
  exact ⟨rfl, (address_eq_zero hkind).symm⟩

theorem toNat_encode_of_noAddress {i : Instr} (hkind : i.kind.isAddressKind = false) :
    (encode i).toNat = i.kind.opcode.toNat * 4096 := by
  simp [toNat_encode, address_eq_zero hkind]

theorem aluOnAccumulator_eq (o : AluOp) (s : State) :
    aluOnAccumulator o s = .next { s with
      acc := alu o s.acc 0
      brTaken := false
      snapshot := { accOld := some s.acc, aluResult := some (alu o s.acc 0) } } :=
  rfl

/-- A no-address kind that runs the ALU operation `o` on the accumulator follows the common rule with every description `f` of that
operation's results. -/
theorem accumulatorRule_of_alu {i : Instr} {o : AluOp} {f : Word → Word} (hkind : i.kind.isAddressKind = false)
    (hexec : ∀ s, exec i s = aluOnAccumulator o s) (hresult : ∀ x, alu o x 0 = f x) :
    accumulatorRule i i.kind.opcode.toNat f := by
  obtain rfl : (alu o · 0) = f := funext hresult
  have hnext (s : State) := (hexec s).trans (aluOnAccumulator_eq o s)
  refine ⟨toNat_encode_of_noAddress hkind, fun w => decode_of_noAddress hkind, fun s => ⟨hnext s, fun hfetch => ?_⟩⟩
  exact step_eq_retired hfetch (hnext _) rfl rfl

/-- Settles O23: the complement's equation in the common rule. -/
theorem notComplements : Obligations.NotComplements :=
  accumulatorRule_of_alu rfl (fun _ => rfl) (alu_not · 0)

/-- Settles O24: the equations of the two results, each in the common rule. -/
theorem incAndDecWrap : Obligations.IncAndDecWrap :=
  ⟨accumulatorRule_of_alu rfl (fun _ => rfl) (alu_inc · 0), accumulatorRule_of_alu rfl (fun _ => rfl) (alu_dec · 0)⟩

/-- Settles O25: the operation's result is 0 by the ALU's table. -/
theorem zroClearsTheAccumulator : Obligations.ZroClearsTheAccumulator :=
  accumulatorRule_of_alu (o := .zro) rfl (fun _ => rfl) fun _ => rfl

end Sys2Proof.Machine
end

section
/-! SUPPORT and PROOFS. NOP (spec/45_nop.md): the words of the four opcodes 12 to 15, and the instruction that has no effect of its
own. -/

namespace Sys2Proof.Machine

open Sys2Proof.Statement Sys2Proof.Laws

/-- The table answers NOP from opcode 12 on, and NOP drops bits 11:0 (R53, R55). -/
theorem decode_of_ge {w : Word} (hw : 0xC000 ≤ w.toNat) : decode w = .nop := by
  obtain ⟨op, a, rfl⟩ := exists_eq_append w
  rw [toNat_append] at hw
  rw [decode_append, kindOfOpcode_of_ge (by omega)]
  rfl

theorem encode_nop : encode .nop = 0xC000#16 :=
  encode_noAddress rfl

theorem exec_nop (s : State) : exec .nop s = .next { s with brTaken := false, snapshot := {} } :=
  rfl

theorem first_of_fetches_nop {s : State} (hfetch : fetches s .nop) :
    first s = .next { s with ir := some .nop, brTaken := false, phase := .firstPhaseDone, snapshot := {} } := by
  obtain ⟨hfault, -⟩ := (fetches_iff s .nop).1 hfetch
  rw [first_of_fetches hfetch (exec_nop _), endFirst_of_none]
  exact hfault

theorem step_of_fetches_nop {s : State} (hfetch : fetches s .nop) :
    step s = .next { retired s with snapshot := {} } :=
  step_eq_retired hfetch (exec_nop _) rfl rfl

/-- Settles O26: the words that decode to NOP, its execute step, and what each phase adds to it. -/
theorem nopOnlyAdvances : Obligations.NopOnlyAdvances := by
  refine ⟨?_, fun w => decode_of_ge, fun s => ⟨exec_nop s, first_of_fetches_nop, step_of_fetches_nop⟩⟩
  rw [encode_nop]
  rfl

/-- Settles O7: once such a word is decoded nothing of it is left but NOP, whose encoding, exports and step are those of
opcode 12. -/
theorem aliasOpcodesAreNop : Obligations.AliasOpcodesAreNop := by
  intro w hw
  have hdecode := decode_of_ge hw
  rw [hdecode]
  refine ⟨rfl, encode_nop, by decide, by decide, fun s hready hcell => step_of_fetches_nop ⟨hready, ?_⟩⟩
  rw [hcell, hdecode]

end Sys2Proof.Machine
end

section
/-! SUPPORT and PROOFS. The micro-program table (spec/46_microprogram.md): the bits of a control word in the order of R155, and the
two functions of R156 that read them, for every content of the table. -/

namespace Sys2Proof.Machine

/-- R155 names every position differently, so that a name has one position. -/
theorem signalNames_nodup : signalNames.Nodup := by
  decide

theorem lt_of_getElem?_signalNames {p : Nat} {name : String} (hp : signalNames[p]? = some name) : p < 12 :=
  (List.getElem?_eq_some_iff.1 hp).1

theorem idxOf?_signalNames {p : Nat} {name : String} (hp : signalNames[p]? = some name) :
    signalNames.idxOf? name = some p := by
  obtain ⟨hlt, rfl⟩ := List.getElem?_eq_some_iff.1 hp
  refine List.findIdx?_eq_some_iff_getElem.2 ⟨hlt, beq_self_eq_true _, fun j hj heq => ?_⟩
  exact absurd (signalNames_nodup.getElem_inj_iff.1 (eq_of_beq heq)) (Nat.ne_of_lt hj)

theorem getValues_of_lt (k : Kind) {p : Nat} (hp : p < 12) : (getValues k)[p]? = some ((Config.mpt k).getMsbD p) := by
  rw [getValues, List.getElem?_map, List.getElem?_range hp, Option.map_some]

theorem getValues_of_ge (k : Kind) {p : Nat} (hp : 12 ≤ p) : (getValues k)[p]? = none :=
  List.getElem?_eq_none (by simpa [getValues] using hp)

/-- Position `p` from the left is bit `11 - p` of the control word. -/
theorem getElem?_getValues (k : Kind) (p : Nat) :
    (getValues k)[p]? = if p < 12 then some ((Config.mpt k).getLsbD (11 - p)) else none := by
  split
  next hp => simp [getValues_of_lt k hp, BitVec.getMsbD_eq_getLsbD, hp]
  next hp => exact getValues_of_ge k (Nat.not_lt.1 hp)

theorem getSignal_of_getElem? (k : Kind) {p : Nat} {name : String} (hp : signalNames[p]? = some name) :
    getSignal k name = .ok ((Config.mpt k).getMsbD p) := by
  rw [getSignal, idxOf?_signalNames hp]

theorem getSignal_of_notMem (k : Kind) {name : String} (hname : name ∉ signalNames) :
    getSignal k name = .error (.unknownSignal name) := by
  rw [getSignal, List.idxOf?_eq_none_iff.2 hname]

/-- Settles O59: both functions answer the bit at a name's one position; the alias opcodes decode to NOP itself. -/
theorem microProgramReads : Obligations.MicroProgramReads := by
  refine ⟨rfl, getElem?_getValues, fun k p name hp => ?_, fun k _ => getSignal_of_notMem k, fun w hw => ?_⟩
  · exact ⟨_, getValues_of_lt k (lt_of_getElem?_signalNames hp), getSignal_of_getElem? k hp⟩
  · rw [decode_of_ge hw]
    rfl

end Sys2Proof.Machine
end

section
/-! SUPPORT and PROOFS. One inversion for the execute step and one for FIRST and STEP: an operand access that failed, or everything
the instruction did. From them the frames, `pc`, the snapshot, errors, counters and stores, each for all kinds at once. -/

namespace Sys2Proof.Machine

open Sys2Proof.Statement Sys2Proof.Laws

/-! ## The execute step -/

/-- The snapshot of an instruction that ran from `s` to `t` (spec/40_cycle.md R88). -/
def snapshotOf (i : Instr) (s t : State) : Snapshot :=
  match i with
  | .sto _ | .nop => {}
  | .lda a => { memRead := some (s.cell a) }
  | .brz _ => { branchTaken := some (takenBranch i s) }
  | .add a | .sub a | .or a | .and a | .xor a =>
    { accOld := some s.acc, aluResult := some t.acc, memRead := some (s.cell a) }
  | .not | .inc | .dec | .zro => { accOld := some s.acc, aluResult := some t.acc }

/-- What an execute step without an error writes (spec/40_cycle.md R86); what no execute step writes is `ExecFrame`. -/
structure Executed (i : Instr) (s t : State) : Prop where
  inRange : i.kind.isAddressKind = true → i.kind ≠ .brz → i.address.toNat < s.memSize
  acc : i.kind = .sto ∨ i.kind = .brz ∨ i.kind = .nop → t.acc = s.acc
  pc : t.pc = if takenBranch i s then i.address else s.pc
  mem : t.mem = if i.kind = .sto then s.mem.poke i.address.toNat s.acc else s.mem
  brTaken : t.brTaken = takenBranch i s
  branchCount : t.branchCount = s.branchCount + if takenBranch i s then 1 else 0
  fault : t.fault = s.fault
  snapshot : t.snapshot = snapshotOf i s t

/-- An operand access whose bounds check failed is an error recorded and nothing else (spec/60_exceptions.md R161, R163). -/
def OperandError (i : Instr) (s t : State) : Prop :=
  ∃ c : Cause, c.isOf i = true ∧ s.memSize ≤ i.address.toNat ∧ t = s.raise ⟨c, i.address⟩

theorem exec_brz_executed {a : Addr} {s t : State} (h : exec (.brz a) s = .next t) : Executed (.brz a) s t := by
  by_cases hzero : s.acc = 0
  · have htaken : takenBranch (.brz a) s = true := decide_eq_true hzero
    cases (exec_brz_taken a hzero).symm.trans h
    constructor <;> simp [htaken, snapshotOf, Instr.kind, Instr.address]
  · have htaken : takenBranch (.brz a) s = false := decide_eq_false hzero
    cases (exec_brz_notTaken a hzero).symm.trans h
    constructor <;> simp [htaken, snapshotOf, Instr.kind]

theorem exec_outcome {i : Instr} {s t : State} (h : exec i s = .next t) : OperandError i s t ∨ Executed i s t := by
  cases i with
  | sto a =>
    rw [exec, execSto_eq] at h
    cases h
    split
    next ha => exact .inr ⟨fun _ _ => ha, fun _ => rfl, rfl, rfl, rfl, rfl, rfl, rfl⟩
    next ha => exact .inl ⟨.storeOutOfRange, rfl, Nat.not_lt.1 ha, rfl⟩
  | brz a => exact .inr (exec_brz_executed h)
  | lda a | add a | sub a | or a | and a | xor a =>
    rcases Nat.lt_or_ge a.toNat s.memSize with ha | ha
    · cases (withOperand_inRange ha).symm.trans h
      exact .inr ⟨fun _ _ => ha, by simp [Instr.kind], rfl, rfl, rfl, rfl, rfl, rfl⟩
    · cases (withOperand_outOfRange ha).symm.trans h
      exact .inl ⟨.loadOutOfRange, rfl, ha, rfl⟩
  | not | inc | dec | zro | nop =>
    cases h
    exact .inr ⟨nofun, by simp [Instr.kind], rfl, rfl, rfl, rfl, rfl, rfl⟩

theorem Cause.isOf_address {c : Cause} {i : Instr} (h : c.isOf i = true) :
    i.kind.isAddressKind = true ∧ i.kind ≠ .brz := by
  cases i with
  | brz a => cases c <;> nomatch h
  | not | inc | dec | zro | nop => cases c <;> nomatch h
  | sto a | lda a | add a | sub a | or a | and a | xor a => exact ⟨rfl, nofun⟩

theorem takenBranch_of_ne_brz {i : Instr} (s : State) (hbrz : i.kind ≠ .brz) : takenBranch i s = false := by
  simp [takenBranch, hbrz]

/-- Settles O29: what no execute step writes, what an operand error writes, and what the instruction itself does. -/
theorem nonStoringFrame : Obligations.NonStoringFrame := by
  intro i s t hsto h
  have hmem := exec_mem_of_kind_ne_sto hsto h
  have hframe := exec_frame h
  refine ⟨hmem, fun a => congrArg (Memory.peek · a.toNat) hmem, hframe.cfg, hframe.ir, hframe.phase, hframe.maxPc,
    hframe.instructionCount, hframe.cycles, ?_⟩
  obtain ⟨c, hc, hrange, rfl⟩ | hdone := exec_outcome h
  · obtain ⟨haddr, hbrz⟩ := Cause.isOf_address hc
    refine ⟨fun _ => rfl, fun _ => ⟨rfl, rfl⟩, ?_⟩
    rintro (hno | hno | hno)
    · rw [haddr] at hno
      nomatch hno
    · exact absurd hno hbrz
    · omega
  · refine ⟨fun hkind => hdone.acc (.inr hkind), fun hbrz => ?_, fun _ => hdone.fault⟩
    have htaken := takenBranch_of_ne_brz s hbrz
    exact ⟨by simpa [htaken] using hdone.pc, by simpa [htaken] using hdone.branchCount⟩

/-- Settles O30: out of range only the fault register is written; in range the written cell is the one at the address. -/
theorem stoFrame : Obligations.StoFrame := by
  intro a s t h
  rcases Nat.lt_or_ge a.toNat s.memSize with ha | ha
  · cases (exec_sto_inRange ha).symm.trans h
    exact ⟨rfl, rfl, rfl, rfl, rfl, rfl, rfl, rfl, rfl, fun _ => rfl, fun hge => absurd ha (Nat.not_lt.2 hge),
      fun hwf _ => State.cell_poke_other s.acc hwf⟩
  · cases (exec_sto_outOfRange ha).symm.trans h
    exact ⟨rfl, rfl, rfl, rfl, rfl, rfl, rfl, rfl, rfl, fun hlt => absurd hlt (Nat.not_lt.2 ha),
      fun _ => ⟨rfl, rfl, rfl⟩, fun _ _ _ => rfl⟩

/-! ## FIRST and STEP -/

/-- What a FIRST that ended Ok has done (spec/40_cycle.md R81). -/
structure FirstOk (s t : State) : Prop where
  executed : Executed (decode (s.cell s.pc)) s t
  cfg : t.cfg = s.cfg
  ir : t.ir = some (decode (s.cell s.pc))
  phase : t.phase = .firstPhaseDone
  maxPc : t.maxPc = s.maxPc
  instructionCount : t.instructionCount = s.instructionCount
  cycles : t.cycles = s.cycles

/-- A FIRST that answers a next state failed in its fetch, failed in its operand access, or ended Ok. -/
theorem first_outcome {s t : State} (h : first s = .next t) :
    s.memSize ≤ s.pc.toNat ∧ t = s.raise ⟨.fetchOutOfRange, s.pc⟩ ∨
      s.pc.toNat < s.memSize ∧
        (OperandError (decode (s.cell s.pc)) { s with ir := some (decode (s.cell s.pc)) } t ∨ FirstOk s t) := by
  obtain ⟨hfault, -, hfetch | ⟨hpc, rfl⟩⟩ := first_next h
  · exact .inl hfetch
  · refine .inr ⟨hpc, ?_⟩
    have hexec := exec_next (decode (s.cell s.pc)) { s with ir := some (decode (s.cell s.pc)) }
    obtain ⟨c, hc, hrange, hraise⟩ | ⟨hin, hacc, hpc, hmem, hlatch, hcount, hkeep, hshot⟩ := exec_outcome hexec
    · rw [hraise]
      exact .inl ⟨c, hc, hrange, rfl⟩
    · obtain ⟨hcfg, hir, -, hmaxPc, hinstr, hcycles⟩ := exec_frame hexec
      rw [endFirst_of_none (hkeep.trans hfault)]
      exact .inr ⟨⟨hin, hacc, hpc, hmem, hlatch, hcount, hkeep, hshot⟩, hcfg, hir, rfl, hmaxPc, hinstr, hcycles⟩

theorem FirstOk.fault {s t : State} (h : first s = .next t) (hok : FirstOk s t) : t.fault = none :=
  hok.executed.fault.trans (first_next h).1

theorem first_ok {s t : State} (h : first s = .next t) (ht : t.fault = none) : FirstOk s t := by
  obtain ⟨-, rfl⟩ | ⟨-, ⟨_, -, -, rfl⟩ | hok⟩ := first_outcome h
  · nomatch ht
  · nomatch ht
  · exact hok

theorem second_next {s t : State} (h : second s = .next t) :
    s.fault = none ∧ s.phase = .firstPhaseDone ∧ t = commit s := by
  rcases second_cases s with ⟨_, _, hs⟩ | ⟨_, _, hs⟩ | ⟨hfault, hphase, hs⟩ <;> rw [hs] at h <;> cases h
  exact ⟨hfault, hphase, rfl⟩

/-- A STEP that recorded an error stopped after its FIRST. -/
theorem first_of_step_error {s t : State} {r : FaultRecord} (h : step s = .next t) (ht : t.fault = some r) :
    first s = .next t := by
  obtain ⟨u, hfirst, ⟨_, -, rfl⟩ | ⟨hnone, -, rfl⟩⟩ := step_cases h
  · exact hfirst
  · rw [commit_fault, hnone] at ht
    nomatch ht

/-- A STEP that ended Ok is an Ok FIRST and its commit. -/
theorem step_ok {s t : State} (h : step s = .next t) (ht : t.fault = none) : ∃ u, FirstOk s u ∧ t = commit u := by
  obtain ⟨u, hfirst, ⟨_, hsome, rfl⟩ | ⟨hnone, -, rfl⟩⟩ := step_cases h
  · rw [hsome] at ht
    nomatch ht
  · exact ⟨u, first_ok hfirst hnone, rfl⟩

/-- Settles O38: FIRST moves `pc` for a taken branch only, and the latch keeps the commit from moving it again. -/
theorem pcAdvance : Obligations.PcAdvance := by
  refine fun s t _ ht => ⟨fun h => (first_ok h ht).executed.pc, fun h => ?_⟩
  obtain ⟨u, hok, rfl⟩ := step_ok h ht
  rw [commit_pc, hok.executed.brTaken, hok.executed.pc, addr_add_one]
  split <;> rfl

/-- Settles O39: the snapshot of an Ok FIRST is its instruction's, read off kind by kind. -/
theorem snapshotTable : Obligations.SnapshotTable := by
  intro s t _ ht h
  have hshot := (first_ok h ht).executed.snapshot
  intro i computes reads
  change t.snapshot = snapshotOf i s t at hshot
  clear_value i
  subst computes reads
  rw [hshot]
  cases i <;> exact ⟨rfl, rfl, rfl, rfl⟩

/-- Settles O40: a STEP with an error is a FIRST with one, which failed in its fetch or in its operand access. -/
theorem memoryAddressErrorIsPrecise : Obligations.MemoryAddressErrorIsPrecise := by
  intro s t r _ h ht
  have hfirst := first_of_step_error h ht
  obtain ⟨hpc, rfl⟩ | ⟨hpc, ⟨c, hc, hrange, rfl⟩ | hok⟩ := first_outcome hfirst
  · cases ht
    exact .inl ⟨rfl, rfl, hpc, rfl⟩
  · cases ht
    exact .inr ⟨hc, rfl, hpc, hrange, rfl⟩
  · rw [hok.fault hfirst] at ht
    nomatch ht

/-- Settles O41: no 12-bit address reaches 4096, so neither the fetch nor an operand access can fail. -/
theorem noErrorWithFullMemory : Obligations.NoErrorWithFullMemory := by
  intro s hsize hfault hphase
  obtain ⟨u, hfirst⟩ := exists_first_next hfault hphase
  have hlt (a : Addr) : a.toNat < s.memSize := hsize ▸ a.isLt
  obtain ⟨hpc, -⟩ | ⟨-, ⟨_, -, hrange, -⟩ | hok⟩ := first_outcome hfirst
  · exact absurd (hlt _) (Nat.not_lt.2 hpc)
  · exact absurd (hlt _) (Nat.not_lt.2 hrange)
  · have hnone := hok.fault hfirst
    exact ⟨commit u, step_eq_commit hfirst hnone, hnone, rfl, rfl⟩

/-- Settles O42: an error counts nothing, an Ok FIRST counts a taken branch, and the commit counts the instruction. -/
theorem countersCountTheirEvents : Obligations.CountersCountTheirEvents := by
  refine ⟨fun s t h => ?_, fun s t h => ?_, fun s t hfault h => ?_⟩
  · obtain ⟨-, rfl⟩ | ⟨-, ⟨_, -, -, rfl⟩ | hok⟩ := first_outcome h
    · simp
    · simp
    · simpa [hok.fault h] using ⟨hok.instructionCount, hok.cycles, hok.executed.branchCount⟩
  · obtain ⟨-, -, rfl⟩ := second_next h
    exact ⟨rfl, rfl, rfl⟩
  · rcases t.fault_cases with ht | ⟨r, ht⟩
    · obtain ⟨u, hok, rfl⟩ := step_ok h ht
      rw [if_pos ht, commit_instructionCount, commit_cycles, hok.instructionCount, hok.cycles]
      exact ⟨rfl, rfl⟩
    · obtain rfl | rfl := first_error (first_of_step_error h ht) ht <;> simp

/-! ## Stores -/

/-- Settles O46: an error changes no cell, and an Ok instruction only the cell of a STO. -/
theorem onlyStoChangesCells : Obligations.OnlyStoChangesCells := by
  intro s t a hwf h hne
  rcases t.fault_cases with ht | ⟨r, ht⟩
  · obtain ⟨u, hok, rfl⟩ := step_ok h ht
    have hmem : (commit u).cell a = u.mem.peek a.toNat := rfl
    have hsto : (decode (s.cell s.pc)).kind = .sto := by
      by_contra hsto
      rw [hmem, hok.executed.mem, if_neg hsto] at hne
      exact hne rfl
    rw [hmem, hok.executed.mem, if_pos hsto] at hne ⊢
    obtain rfl : a = (decode (s.cell s.pc)).address := by
      by_contra ha
      exact hne (State.cell_poke_other s.acc hwf ha)
    exact ⟨(eq_iff_kind_address _ _).2 ⟨hsto, rfl⟩, State.cell_poke_same _ s.acc hwf⟩
  · obtain rfl | rfl := first_error (first_of_step_error h ht) ht <;> exact absurd rfl hne

/-- Settles O47: the step writes the cell, and the core is ready at the next address. -/
theorem storedWordIsFetchedNext : Obligations.StoredWordIsFetchedNext := by
  intro s a hwf hfetch ha
  obtain ⟨hfault, hphase, -⟩ := (fetches_iff s _).1 hfetch
  have hcell := State.cell_poke_same a s.acc hwf
  refine ⟨_, step_eq_retired hfetch (exec_sto_inRange ha) rfl rfl, hcell, fun hnext => ?_⟩
  subst hnext
  exact (fetches_iff _ _).2 ⟨hfault, hphase, ha, congrArg decode hcell⟩

/-! ## A whole instruction -/

/-- Settles O34: the commit after an execute step without an error, whose counters are those it started from. -/
theorem stepRunsTheDecodedInstruction : Obligations.StepRunsTheDecodedInstruction := by
  intro s t i hfetch _ hexec
  have hfirst := first_of_fetches hfetch hexec
  have hframe := exec_frame hexec
  rcases t.fault_cases with ht | ⟨r, ht⟩
  · rw [if_pos ht, step_eq_commit hfirst ((endFirst_fault t).trans ht), commit_endFirst ht, commit,
      hframe.instructionCount, hframe.cycles]
  · rw [if_neg (by simp [ht]), step_of_first_error hfirst ((endFirst_fault t).trans ht), endFirst_of_some ht]

end Sys2Proof.Machine
end

section
/-! SUPPORT and PROOFS. The invariant (Sys2Proof/Safety.lean): FIRST, SECOND, RESET and LOAD keep it, hence every step and command.
A RUN is a chain of Ok steps and perhaps one step that did not end Ok. -/

namespace Sys2Proof.Machine

open Sys2Proof.Statement

/-! ## The invariant read as propositions -/

theorem State.inv_iff (s : State) : s.inv = true ↔ s.memoryOk = true ∧ s.phaseOk = true ∧ s.countersOk = true := by
  simp [State.inv, and_assoc]

theorem State.memoryOk_iff (s : State) :
    s.memoryOk = true ↔ Memory.wf s.mem = true ∧ Memory.below s.memSize s.mem = true := by
  simp [State.memoryOk]

theorem State.latchOk_iff (s : State) (i : Instr) :
    s.latchOk i = true ↔ (s.brTaken = true → i.kind = .brz ∧ s.pc = i.address ∧ s.acc = 0) := by
  cases h : s.brTaken <;> simp [State.latchOk, h, and_assoc]

theorem State.phaseOk_ready {s : State} (hphase : s.phase = .idle) (hfault : s.fault = none) :
    s.phaseOk = true ↔ s.ir = none := by
  cases hir : s.ir <;> simp [State.phaseOk, hphase, hfault, hir]

theorem State.phaseOk_between {s : State} {i : Instr} (hphase : s.phase = .firstPhaseDone) (hfault : s.fault = none)
    (hir : s.ir = some i) : s.phaseOk = s.latchOk i := by
  simp [State.phaseOk, hphase, hfault, hir]

@[simp] theorem State.raise_inRange (s : State) (r : FaultRecord) (a : Addr) : (s.raise r).inRange a = s.inRange a := rfl

theorem State.inRange_eq_false {s : State} {a : Addr} (h : s.memSize ≤ a.toNat) : s.inRange a = false :=
  decide_eq_false (Nat.not_lt.2 h)

theorem State.phaseOk_fetchError {s : State} (hphase : s.phase = .idle) (hir : s.ir = none)
    (hpc : s.memSize ≤ s.pc.toNat) : (s.raise ⟨.fetchOutOfRange, s.pc⟩).phaseOk = true := by
  simp [State.phaseOk, hphase, hir, State.inRange_eq_false hpc]

theorem State.phaseOk_operandError {s : State} {i : Instr} {c : Cause} (hphase : s.phase = .idle) (hir : s.ir = some i)
    (hc : c.isOf i = true) (hrange : s.memSize ≤ i.address.toNat) : (s.raise ⟨c, i.address⟩).phaseOk = true := by
  simp [State.phaseOk, hphase, hir, hc, State.inRange_eq_false hrange]

theorem State.countersOk_of_idle {s : State} (hphase : s.phase = .idle) :
    s.countersOk = true ↔ s.cycles = s.instructionCount ∧ s.branchCount ≤ s.instructionCount := by
  simp [State.countersOk, hphase]

theorem State.countersOk_between {s : State} (hphase : s.phase = .firstPhaseDone) :
    s.countersOk = true ↔
      s.cycles = s.instructionCount ∧ s.branchCount ≤ s.instructionCount + if s.brTaken then 1 else 0 := by
  simp [State.countersOk, hphase]

/-! ## FIRST, SECOND, STEP -/

theorem Executed.memoryOk {i : Instr} {s t : State} (h : Executed i s t) (hcfg : t.cfg = s.cfg)
    (hs : s.memoryOk = true) : t.memoryOk = true := by
  obtain ⟨hwf, hbelow⟩ := s.memoryOk_iff.1 hs
  rw [t.memoryOk_iff, t.memSize_eq, hcfg, ← s.memSize_eq, h.mem]
  split
  next hsto =>
    have hrange := h.inRange (by rw [hsto]; rfl) (by rw [hsto]; nofun)
    exact ⟨Memory.wf_poke _ _ hwf, Memory.below_poke _ hbelow hrange⟩
  next => exact ⟨hwf, hbelow⟩

/-- The latch is set exactly by a taken branch, whose target is then in `pc` and whose condition was the accumulator 0. -/
theorem Executed.latchOk {i : Instr} {s t : State} (h : Executed i s t) : t.latchOk i = true := by
  rw [t.latchOk_iff, h.brTaken]
  intro htaken
  obtain ⟨hbrz, hzero⟩ : i.kind = .brz ∧ s.acc = 0 := by simpa [takenBranch] using htaken
  exact ⟨hbrz, by rw [h.pc, if_pos htaken], by rw [h.acc (.inr (.inl hbrz)), hzero]⟩

theorem first_keeps_inv {s t : State} (hs : s.inv = true) (h : first s = .next t) : t.inv = true := by
  obtain ⟨hmem, hok, hcount⟩ := s.inv_iff.1 hs
  obtain ⟨hfault, hphase, -⟩ := first_next h
  have hir : s.ir = none := (State.phaseOk_ready hphase hfault).1 hok
  rw [t.inv_iff]
  obtain ⟨hpc, rfl⟩ | ⟨-, ⟨c, hc, hrange, rfl⟩ | hfirst⟩ := first_outcome h
  · exact ⟨hmem, State.phaseOk_fetchError hphase hir hpc, hcount⟩
  · exact ⟨hmem, State.phaseOk_operandError hphase rfl hc hrange, hcount⟩
  · refine ⟨hfirst.executed.memoryOk hfirst.cfg hmem, ?_, (State.countersOk_between hfirst.phase).2 ?_⟩
    · rw [State.phaseOk_between hfirst.phase (hfirst.fault h) hfirst.ir]
      exact hfirst.executed.latchOk
    · obtain ⟨hcycles, hbranches⟩ := (State.countersOk_of_idle hphase).1 hcount
      rw [hfirst.cycles, hfirst.instructionCount, hfirst.executed.branchCount, hfirst.executed.brTaken]
      exact ⟨hcycles, Nat.add_le_add_right hbranches _⟩

theorem second_keeps_inv {s t : State} (hs : s.inv = true) (h : second s = .next t) : t.inv = true := by
  obtain ⟨hmem, -, hcount⟩ := s.inv_iff.1 hs
  obtain ⟨hfault, hphase, rfl⟩ := second_next h
  obtain ⟨hcycles, hbranches⟩ := (State.countersOk_between hphase).1 hcount
  refine (commit s).inv_iff.2 ⟨hmem, (State.phaseOk_ready (s := commit s) rfl hfault).2 rfl,
    (State.countersOk_of_idle (s := commit s) rfl).2 ?_⟩
  rw [commit_cycles, commit_instructionCount, commit_branchCount]
  split at hbranches <;> omega

/-- What FIRST and SECOND keep, STEP keeps. -/
theorem step_keeps {P : State → Prop} (hfirst : ∀ s t, P s → first s = .next t → P t)
    (hsecond : ∀ s t, P s → second s = .next t → P t) {s t : State} (hs : P s) (h : step s = .next t) : P t := by
  obtain ⟨u, hu, ⟨_, -, rfl⟩ | ⟨hnone, hphase, rfl⟩⟩ := step_cases h
  · exact hfirst s t hs hu
  · exact hsecond u _ (hfirst s u hs hu) (second_of_firstPhaseDone hnone hphase)

/-- Settles O43: both phases keep the invariant. -/
theorem stepKeepsInvariant : Obligations.StepKeepsInvariant := by
  intro s t
  exact step_keeps (fun _ _ => first_keeps_inv) (fun _ _ => second_keeps_inv)

/-! ## Commands -/

/-- A command's outcome leaves the state alone or leaves the next state the step machine answered. -/
theorem answer_ended {s t : State} {o : Host.Outcome State Fault Refusal} {r : Reply} (h : answer s o = .ended r t) :
    t = s ∨ o = .next t := by
  unfold answer at h
  split at h
  · split at h <;> cases h <;> exact .inr rfl
  · cases h
    exact .inl rfl
  · cases h
    exact .inl rfl
  · nomatch h

/-- One turn of RUN (spec/40_cycle.md R85): a STEP that ended Ok, of a core that is not done. -/
def OkTurn (s t : State) : Prop := s.done = false ∧ answer s (step s) = .ended .ok t

theorem runLoop_done_ended {fuel : Nat} {s t : State} {r : Reply} (hdone : s.done = true)
    (h : runLoop fuel s = .ended r t) : r = .ok ∧ t = s ∧ s.done = true := by
  rw [runLoop_of_done fuel hdone] at h
  cases h
  exact ⟨rfl, rfl, hdone⟩

theorem answer_of_runLoop_ended {fuel : Nat} {s t : State} {r : Reply} (hdone : s.done = false)
    (h : runLoop (fuel + 1) s = .ended r t) : ∃ r' u, answer s (step s) = .ended r' u := by
  cases hturn : answer s (step s) with
  | ended r' u => exact ⟨r', u, rfl⟩
  | running | refused _ =>
    rw [step] at hturn
    simp [runLoop, hdone, hturn] at h

/-- A RUN that ended made Ok turns up to a state that is done, or up to one whose STEP ended otherwise. -/
theorem runLoop_ended {fuel : Nat} {s t : State} {r : Reply} (h : runLoop fuel s = .ended r t) :
    ∃ u, Relation.ReflTransGen OkTurn s u ∧
      (r = .ok ∧ t = u ∧ u.done = true ∨ r ≠ .ok ∧ answer u (step u) = .ended r t) := by
  induction fuel generalizing s with
  | zero =>
    cases hdone : s.done with
    | true => exact ⟨s, .refl, .inl (runLoop_done_ended hdone h)⟩
    | false =>
      rw [runLoop_zero hdone] at h
      nomatch h
  | succ fuel ih =>
    cases hdone : s.done with
    | true => exact ⟨s, .refl, .inl (runLoop_done_ended hdone h)⟩
    | false =>
      obtain ⟨r', u, hturn⟩ := answer_of_runLoop_ended hdone h
      by_cases hr' : r' = .ok
      · rw [hr'] at hturn
        rw [runLoop_of_step_ok fuel hdone hturn] at h
        obtain ⟨v, hturns, hend⟩ := ih h
        exact ⟨v, .head ⟨hdone, hturn⟩ hturns, hend⟩
      · rw [runLoop_of_step_not_ok fuel hdone hr' hturn] at h
        cases h
        exact ⟨s, .refl, .inr ⟨hr', hturn⟩⟩

theorem run_of_halted {s : State} {r : FaultRecord} (fuel : Nat) (hfault : s.fault = some r) :
    run fuel s = .ended .halted s := by
  simp only [run, hfault]

theorem run_ended {fuel : Nat} {s t : State} {r : Reply} (h : run fuel s = .ended r t) :
    r = .halted ∧ t = s ∨ s.fault = none ∧ runLoop fuel s = .ended r t := by
  rcases s.fault_cases with hfault | ⟨r', hfault⟩
  · rw [run_of_notHalted fuel hfault] at h
    exact .inr ⟨hfault, h⟩
  · rw [run_of_halted fuel hfault] at h
    cases h
    exact .inl ⟨rfl, rfl⟩

/-- What Ok turns keep holds after any number of them. -/
theorem okTurns_keep {P : State → Prop} (hturn : ∀ s t, P s → OkTurn s t → P t) {s t : State}
    (hturns : Relation.ReflTransGen OkTurn s t) (hs : P s) : P t := by
  induction hturns with
  | refl => exact hs
  | tail _ hlast ih => exact hturn _ _ ih hlast

theorem answer_keeps {P : State → Prop} {o : State → Host.Outcome State Fault Refusal}
    (ho : ∀ s t, P s → o s = .next t → P t) {s t : State} {r : Reply} (hs : P s) (h : answer s (o s) = .ended r t) :
    P t := by
  obtain rfl | hnext := answer_ended h
  · exact hs
  · exact ho s t hs hnext

theorem run_keeps {P : State → Prop} (hstep : ∀ s t, P s → step s = .next t → P t) {fuel : Nat} {s t : State} {r : Reply}
    (hs : P s) (h : run fuel s = .ended r t) : P t := by
  obtain ⟨-, rfl⟩ | ⟨-, hloop⟩ := run_ended h
  · exact hs
  obtain ⟨u, hturns, hend⟩ := runLoop_ended hloop
  have hu : P u := okTurns_keep (fun _ _ hv hturn => answer_keeps hstep hv hturn.2) hturns hs
  obtain ⟨-, rfl, -⟩ | ⟨-, hlast⟩ := hend
  · exact hu
  · exact answer_keeps hstep hu hlast

/-- What FIRST and SECOND keep, the four commands that run instructions keep. -/
theorem perform_keeps {P : State → Prop} (hfirst : ∀ s t, P s → first s = .next t → P t)
    (hsecond : ∀ s t, P s → second s = .next t → P t) {fuel : Nat} {c : Command} {s t : State} {r : Reply}
    (hc : c = .first ∨ c = .second ∨ c = .step ∨ c = .run) (hs : P s) (h : perform fuel c s = .ended r t) : P t := by
  obtain rfl | rfl | rfl | rfl := hc
  · exact answer_keeps hfirst hs h
  · exact answer_keeps hsecond hs h
  · exact answer_keeps (fun _ _ => step_keeps hfirst hsecond) hs h
  · exact run_keeps (fun _ _ => step_keeps hfirst hsecond) hs h

/-! ## RESET and LOAD -/

theorem below_writeImage {n : Nat} {image : Image} {m : Memory} (hrange : Image.inRange n image = true)
    (h : Memory.below n m = true) : Memory.below n (writeImage image m) = true := by
  induction image generalizing m with
  | nil => exact h
  | cons w rest ih =>
    obtain ⟨⟨h0, hn⟩, hrest⟩ : (0 ≤ w.address ∧ w.address < n) ∧ Image.inRange n rest = true := by
      simpa [Image.inRange] using hrange
    exact ih hrest (Memory.below_poke _ h (by omega))

/-- Settles O11: the reset state has no cell listed, no instruction begun and nothing counted. -/
theorem resetMeetsInvariant : Obligations.ResetMeetsInvariant := fun _ => rfl

theorem loadedState_inv {image : Image} {s : State} (m : Option Addr) (hrange : Image.inRange s.memSize image = true) :
    (loadedState image m s).inv = true := by
  refine (State.inv_iff _).2 ⟨(State.memoryOk_iff _).2 ⟨?_, ?_⟩, rfl, rfl⟩
  · exact Memory.wf_writeImage image rfl
  · exact below_writeImage hrange rfl

/-- LOAD of an image that names no cell twice is the loaded state, or the reset state where a write is out of range. -/
theorem load_ended {image : Image} {m : Option Addr} {s t : State} {r : Reply} (h : load image m s = .ended r t) :
    r = .ok ∧ Image.inRange s.memSize image = true ∧ t = loadedState image m s ∨
      r = .memoryAddressError ∧ t = State.resetOf s.cfg := by
  unfold load at h
  split at h
  · nomatch h
  · split at h
    next hrange =>
      cases h
      exact .inl ⟨rfl, hrange, rfl⟩
    next =>
      cases h
      exact .inr ⟨rfl, rfl⟩

/-- A command that ended is one of the four that run instructions, or left the reset state or a loaded one. -/
theorem perform_cases {fuel : Nat} {c : Command} {s t : State} {r : Reply} (h : perform fuel c s = .ended r t) :
    (c = .first ∨ c = .second ∨ c = .step ∨ c = .run) ∨ t = State.resetOf s.cfg ∨
      ∃ image m, Image.inRange s.memSize image = true ∧ t = loadedState image m s := by
  cases c with
  | first | second | step | run => exact .inl (by simp)
  | reset =>
    cases h
    exact .inr (.inl rfl)
  | load image m =>
    obtain ⟨-, hrange, ht⟩ | ⟨-, ht⟩ := load_ended h
    · exact .inr (.inr ⟨image, m, hrange, ht⟩)
    · exact .inr (.inl ht)

/-- Settles O44: RESET and LOAD reach it afresh, and the other four commands keep it as FIRST and SECOND do. -/
theorem commandsKeepInvariant : Obligations.CommandsKeepInvariant := by
  intro fuel c s t r hs h
  obtain hc | rfl | ⟨image, m, hrange, rfl⟩ := perform_cases h
  · exact perform_keeps (P := (State.inv · = true)) (fun _ _ => first_keeps_inv) (fun _ _ => second_keeps_inv) hc hs h
  · exact resetMeetsInvariant s.cfg
  · exact loadedState_inv m hrange

theorem first_cfg_maxPc {s t : State} (h : first s = .next t) : t.cfg = s.cfg ∧ t.maxPc = s.maxPc := by
  obtain ⟨-, rfl⟩ | ⟨-, ⟨_, -, -, rfl⟩ | hok⟩ := first_outcome h
  · exact ⟨rfl, rfl⟩
  · exact ⟨rfl, rfl⟩
  · exact ⟨hok.cfg, hok.maxPc⟩

theorem second_cfg_maxPc {s t : State} (h : second s = .next t) : t.cfg = s.cfg ∧ t.maxPc = s.maxPc := by
  obtain ⟨-, -, rfl⟩ := second_next h
  exact ⟨rfl, rfl⟩

theorem perform_cfg_maxPc {fuel : Nat} {c : Command} {s t : State} {r : Reply}
    (hc : c = .first ∨ c = .second ∨ c = .step ∨ c = .run) (h : perform fuel c s = .ended r t) :
    t.cfg = s.cfg ∧ t.maxPc = s.maxPc :=
  perform_keeps (P := fun u => u.cfg = s.cfg ∧ u.maxPc = s.maxPc)
    (fun _ _ hu hnext => (first_cfg_maxPc hnext).imp (·.trans hu.1) (·.trans hu.2))
    (fun _ _ hu hnext => (second_cfg_maxPc hnext).imp (·.trans hu.1) (·.trans hu.2)) hc ⟨rfl, rfl⟩ h

/-- Settles O45: neither phase writes the limit or the size, and RESET and LOAD keep the size. -/
theorem limitAndSizeAreFixedByStepping : Obligations.LimitAndSizeAreFixedByStepping := by
  refine ⟨fun fuel c s t r h => ?_, fun fuel c s t r hc h => (perform_cfg_maxPc hc h).2⟩
  obtain hc | rfl | ⟨image, m, -, rfl⟩ := perform_cases h
  · exact congrArg Config.memSize (perform_cfg_maxPc hc h).1
  · rfl
  · rfl

/-- Settles O10: the reset state, field by field. -/
theorem resetValues : Obligations.ResetValues :=
  ⟨fun s _ => ⟨State.resetOf s.cfg, rfl, rfl, rfl, rfl, fun _ => rfl, rfl, rfl, rfl, rfl, rfl, rfl, rfl, rfl, rfl, rfl,
    rfl, rfl, rfl⟩, rfl, rfl⟩

end Sys2Proof.Machine
end

section
/-! SUPPORT and PROOFS. Memory as data and LOAD (spec/20_memory.md section 4, spec/70_reset_and_hazards.md R191): canonical
memories are determined by their reads, and what is read after the writes of an image. -/

namespace Sys2Proof.Machine

open Sys2Proof.Statement Sys2Proof.Laws

/-! ## Canonical memories -/

namespace Memory

@[simp] theorem peek_cons_self (b : Nat) (v : Word) (m : Memory) : Memory.peek ((b, v) :: m) b = v := by
  simp [Memory.peek]

theorem peek_cons_of_lt {a b : Nat} (v : Word) (m : Memory) (h : b < a) : Memory.peek ((b, v) :: m) a = Memory.peek m a := by
  simp [Memory.peek, Nat.ne_of_gt h, Nat.not_lt.2 (Nat.le_of_lt h)]

/-- The first listed cell of a canonical memory does not read 0, so no memory that reads alike starts above it. -/
theorem exists_cons_of_peek_eq {lo b : Nat} {v : Word} {m n : Memory} (hm : Memory.wfFrom lo ((b, v) :: m) = true)
    (hn : Memory.wfFrom lo n = true) (h : Memory.peek n b = v) : ∃ c u n', n = (c, u) :: n' ∧ c ≤ b := by
  obtain ⟨-, hv, -⟩ := wfFrom_cons.1 hm
  cases n with
  | nil => exact absurd h.symm hv
  | cons c n' =>
    obtain ⟨c, u⟩ := c
    refine ⟨c, u, n', rfl, Nat.not_lt.1 fun hlt => hv ?_⟩
    obtain ⟨-, hu, hn'⟩ := wfFrom_cons.1 hn
    rw [← h, peek_of_lt (wfFrom_cons.2 ⟨Nat.le_refl c, hu, hn'⟩) hlt]

theorem eq_of_peek_eq_from {lo : Nat} {m n : Memory} (hm : Memory.wfFrom lo m = true) (hn : Memory.wfFrom lo n = true)
    (h : ∀ a, Memory.peek m a = Memory.peek n a) : m = n := by
  induction m generalizing lo n with
  | nil =>
    cases n with
    | nil => rfl
    | cons c n' =>
      obtain ⟨_, _, _, hnil, -⟩ := exists_cons_of_peek_eq hn hm ((h c.1).trans (peek_cons_self _ _ _))
      nomatch hnil
  | cons c m' ih =>
    obtain ⟨b, v⟩ := c
    obtain ⟨c, u, n', rfl, hcb⟩ := exists_cons_of_peek_eq hm hn ((h b).symm.trans (peek_cons_self _ _ _))
    obtain ⟨_, _, _, hcons, hbc⟩ := exists_cons_of_peek_eq hn hm ((h c).trans (peek_cons_self _ _ _))
    cases hcons
    obtain rfl : b = c := Nat.le_antisymm hbc hcb
    obtain rfl : v = u := by simpa using h b
    obtain ⟨-, -, hm'⟩ := wfFrom_cons.1 hm
    obtain ⟨-, -, hn'⟩ := wfFrom_cons.1 hn
    congr 1
    refine ih hm' hn' fun a => ?_
    rcases Nat.lt_or_ge b a with ha | ha
    · simpa only [peek_cons_of_lt _ _ ha] using h a
    · rw [peek_of_lt hm' (Nat.lt_succ_of_le ha), peek_of_lt hn' (Nat.lt_succ_of_le ha)]

end Memory

/-- Settles O14: the first listed cells agree, and then the rest do. -/
theorem canonicalMemoriesAreEqualIfReadsAre : Obligations.CanonicalMemoriesAreEqualIfReadsAre :=
  fun _ _ => Memory.eq_of_peek_eq_from

/-! ## The host's read (R44) -/

theorem State.memSize_le (s : State) : s.memSize ≤ 4096 :=
  s.cfg.lastCell.isLt

/-- Settles O15: an address below MEM_SIZE fits into 12 bits. -/
theorem hostReadIsBoundsChecked : Obligations.HostReadIsBoundsChecked := by
  intro s a
  refine if_ctx_congr Iff.rfl (fun ha => ?_) fun _ => rfl
  have hsize := s.memSize_le
  have hfits : (BitVec.ofInt 12 a).toNat = a.toNat := by
    rw [BitVec.toNat_ofInt]
    omega
  rw [State.cell, hfits]

/-! ## The writes of an image (R191) -/

theorem distinct_iff_nodup (image : Image) : Image.distinct image = true ↔ (image.map (·.address)).Nodup := by
  induction image with
  | nil => simp [Image.distinct]
  | cons w rest ih => simp [Image.distinct, ih]

theorem inRange_iff {memSize : Nat} {image : Image} :
    Image.inRange memSize image = true ↔ ∀ w ∈ image, 0 ≤ w.address ∧ w.address < memSize := by
  simp [Image.inRange]

/-- An image that LOAD can place names distinct cells of the memory. -/
theorem wellFormed_iff {memSize : Nat} {image : Image} :
    Image.wellFormed memSize image = true ↔
      (∀ w ∈ image, 0 ≤ w.address ∧ w.address < memSize) ∧ (image.map (·.address)).Nodup := by
  rw [Image.wellFormed, Bool.and_eq_true, inRange_iff, distinct_iff_nodup]

theorem peek_writeImage_other {image : Image} {m : Memory} {n : Nat} (hwf : Memory.wf m = true)
    (h : ∀ w ∈ image, w.address.toNat ≠ n) : Memory.peek (writeImage image m) n = Memory.peek m n := by
  induction image generalizing m with
  | nil => rfl
  | cons w rest ih =>
    obtain ⟨hw, hrest⟩ := List.forall_mem_cons.1 h
    rw [writeImage, ih (Memory.wf_poke _ _ hwf) hrest, Memory.peek_poke_other _ hwf hw.symm]

theorem peek_writeImage_mem {memSize : Nat} {image : Image} {m : Memory} {w : ImageWrite} (hwf : Memory.wf m = true)
    (himage : Image.wellFormed memSize image = true) (hw : w ∈ image) :
    Memory.peek (writeImage image m) w.address.toNat = BitVec.ofInt 16 w.value := by
  obtain ⟨hrange, hnodup⟩ := wellFormed_iff.1 himage
  induction image generalizing m with
  | nil => nomatch hw
  | cons x rest ih =>
    obtain ⟨hx, hrest⟩ := List.forall_mem_cons.1 hrange
    obtain ⟨hxrest, hnodup⟩ := List.nodup_cons.1 hnodup
    have hwf' := Memory.wf_poke x.address.toNat (BitVec.ofInt 16 x.value) hwf
    obtain rfl | hw := List.mem_cons.1 hw
    · have hother : ∀ y ∈ rest, y.address.toNat ≠ w.address.toNat := by
        intro y hy heq
        have hy0 := (hrest y hy).1
        have hw0 := hx.1
        have haddr : y.address = w.address := by omega
        exact hxrest (List.mem_map.2 ⟨y, hy, haddr⟩)
      rw [writeImage, peek_writeImage_other hwf' hother, Memory.peek_poke_same _ _ hwf]
    · exact ih hwf' (wellFormed_iff.2 ⟨hrest, hnodup⟩) hw hrest hnodup

@[simp] theorem loadedState_memSize (image : Image) (m : Option Addr) (s : State) :
    (loadedState image m s).memSize = s.memSize := rfl

theorem loadedState_hostRead {image : Image} {s : State} {w : ImageWrite} (m : Option Addr)
    (himage : Image.wellFormed s.memSize image = true) (hw : w ∈ image) :
    (loadedState image m s).hostRead w.address = some (BitVec.ofInt 16 w.value) := by
  have hrange := (wellFormed_iff.1 himage).1 w hw
  rw [State.hostRead, loadedState_memSize, if_pos hrange, loadedState_mem, peek_writeImage_mem rfl himage hw]

/-- LOAD of a well-formed image, whose writes the host then reads modulo 65536. -/
theorem load_places {image : Image} {s : State} (m : Option Addr) (himage : Image.wellFormed s.memSize image = true) :
    load image m s = .ended .ok (loadedState image m s) ∧
      ∀ w ∈ image, ∃ v, (loadedState image m s).hostRead w.address = some v ∧ v.toNat = w.value % 65536 :=
  ⟨load_of_wellFormed m himage, fun w hw => ⟨_, loadedState_hostRead m himage hw, toNat_ofInt_word w.value⟩⟩

theorem loadedState_cell_other {image : Image} {s : State} {a : Addr} (m : Option Addr)
    (himage : Image.wellFormed s.memSize image = true) (ha : ∀ w ∈ image, w.address ≠ a.toNat) :
    (loadedState image m s).cell a = 0 := by
  refine peek_writeImage_other (m := []) rfl fun w hw heq => ha w hw ?_
  have hw0 := (wellFormed_iff.1 himage).1 w hw
  omega

/-- Settles O48: the three cases of LOAD, and what is read after the writes of an image it places. -/
theorem loadPlacesTheImage : Obligations.LoadPlacesTheImage := by
  refine fun image m s fuel => ⟨fun himage => ?_, fun hdistinct hrange => ?_, fun hdistinct => ?_⟩
  · obtain ⟨hload, hreads⟩ := load_places m himage
    refine ⟨loadedState image m s, hload, rfl, hreads, fun a => loadedState_cell_other m himage, ?_⟩
    simp [State.done_iff]
  · simp [perform, load, hdistinct, hrange]
  · simp [perform, load, hdistinct]

/-! ## The order of the writes -/

theorem distinct_perm {image other : Image} (h : image.Perm other) : Image.distinct image = Image.distinct other := by
  rw [Bool.eq_iff_iff, distinct_iff_nodup, distinct_iff_nodup, (h.map _).nodup_iff]

theorem inRange_perm {image other : Image} (memSize : Nat) (h : image.Perm other) :
    Image.inRange memSize image = Image.inRange memSize other :=
  h.all_eq

theorem writeImage_perm {memSize : Nat} {image other : Image} (himage : Image.wellFormed memSize image = true)
    (h : image.Perm other) : writeImage image [] = writeImage other [] := by
  have hother : Image.wellFormed memSize other = true := by
    rwa [Image.wellFormed, ← inRange_perm memSize h, ← distinct_perm h]
  have hnil : Memory.wf [] = true := rfl
  refine Memory.eq_of_peek_eq_from (Memory.wf_writeImage image hnil) (Memory.wf_writeImage other hnil) fun n => ?_
  by_cases hn : ∃ w ∈ image, w.address.toNat = n
  · obtain ⟨w, hw, rfl⟩ := hn
    rw [peek_writeImage_mem hnil himage hw, peek_writeImage_mem hnil hother (h.mem_iff.1 hw)]
  · have hnone : ∀ w ∈ image, w.address.toNat ≠ n := fun w hw heq => hn ⟨w, hw, heq⟩
    rw [peek_writeImage_other hnil hnone, peek_writeImage_other hnil fun w hw => hnone w (h.mem_iff.2 hw)]

/-- Settles O49: both checks ignore the order, and the memories they lead to are canonical and read alike. -/
theorem loadIgnoresWriteOrder : Obligations.LoadIgnoresWriteOrder := by
  intro image other m s h
  rw [load, load, ← distinct_perm h, ← inRange_perm s.memSize h]
  split
  next => rfl
  next hdistinct =>
    split
    next hrange =>
      have himage : Image.wellFormed s.memSize image = true := by simp_all [Image.wellFormed]
      rw [loadedState, loadedState, writeImage_perm himage h]
    next => rfl

/-! ## A program from address 0 -/

theorem programImage_addresses (here : Nat) (program : List Instr) :
    (programImage here program).map (·.address) = (List.range' here program.length).map Nat.cast := by
  induction program generalizing here with
  | nil => rfl
  | cons i rest ih => simp [programImage, List.range'_succ, ih]

theorem programImage_wellFormed {memSize : Nat} {program : List Instr} (h : program.length ≤ memSize) :
    Image.wellFormed memSize (programImage 0 program) = true := by
  have haddr := programImage_addresses 0 program
  refine wellFormed_iff.2 ⟨fun w hw => ?_, ?_⟩
  · obtain ⟨k, hk, hkw⟩ := List.mem_map.1 (haddr ▸ List.mem_map_of_mem hw)
    rw [List.mem_range'_1] at hk
    omega
  · rw [haddr]
    exact List.Nodup.map Nat.cast_injective List.nodup_range'

theorem mem_programImage {program : List Instr} {k : Nat} (here : Nat) (hk : k < program.length) :
    ⟨(here + k : Nat), (encode program[k]).toNat⟩ ∈ programImage here program := by
  induction program generalizing here k with
  | nil => nomatch hk
  | cons i rest ih =>
    cases k with
    | zero => exact .head _
    | succ k =>
      have hmem := ih (here + 1) (Nat.lt_of_succ_lt_succ hk)
      rw [Nat.add_right_comm] at hmem
      exact .tail _ hmem

/-- Settles O50: the k-th write of the program's image is the k-th instruction's word, which decodes to it. -/
theorem loadedProgramIsFetched : Obligations.LoadedProgramIsFetched := by
  intro program m s hlength
  have himage := programImage_wellFormed hlength
  refine ⟨_, load_of_wellFormed m himage, fun k hk => ?_⟩
  have hcell := peek_writeImage_mem (m := []) rfl himage (mem_programImage 0 hk)
  have hsize := s.memSize_le
  have hfits : (BitVec.ofNat 12 k).toNat = k := by
    rw [BitVec.toNat_ofNat]
    omega
  rw [State.cell, loadedState_mem, hfits]
  simp only [Nat.zero_add, Int.toNat_natCast] at hcell
  rw [hcell, BitVec.ofInt_natCast, BitVec.ofNat_toNat, BitVec.setWidth_eq, decode_encode]

end Sys2Proof.Machine
end

section
/-! SUPPORT and PROOFS. Which command is legal when (spec/40_cycle.md section 4), and how runs end or do not
(spec/70_reset_and_hazards.md section 2). -/

namespace Sys2Proof.Machine

open Sys2Proof.Statement

/-! ## Legality -/

theorem step_of_halted {s : State} {r : FaultRecord} (hfault : s.fault = some r) : step s = .fault (.halted r) := by
  simp only [step, wholeStep, first_of_halted hfault]

theorem exists_step_next {s : State} (hfault : s.fault = none) (hphase : s.phase = .idle) : ∃ t, step s = .next t := by
  obtain ⟨u, hfirst⟩ := exists_first_next hfault hphase
  rcases u.fault_cases with hu | ⟨r, hu⟩
  · exact ⟨_, step_eq_commit hfirst hu⟩
  · exact ⟨_, step_of_first_error hfirst hu⟩

theorem answer_next (s t : State) :
    answer s (.next t) = .ended .ok t ∨ answer s (.next t) = .ended .memoryAddressError t := by
  rcases t.fault_cases with ht | ⟨r, ht⟩
  · exact .inl (answer_next_of_none ht)
  · exact .inr (answer_next_of_some ht)

theorem perform_of_halted {s : State} {r : FaultRecord} {c : Command} (fuel : Nat) (hfault : s.fault = some r)
    (hc : c = .first ∨ c = .second ∨ c = .step ∨ c = .run) : perform fuel c s = .ended .halted s := by
  obtain rfl | rfl | rfl | rfl := hc
  · rw [perform, first_of_halted hfault, answer]
  · rw [perform, second_of_halted hfault, answer]
  · rw [perform, step_of_halted hfault, answer]
  · exact run_of_halted fuel hfault

theorem perform_of_idle {s : State} {c : Command} (fuel : Nat) (hfault : s.fault = none) (hphase : s.phase = .idle)
    (hc : c = .first ∨ c = .step) :
    ∃ t, perform fuel c s = .ended .ok t ∨ perform fuel c s = .ended .memoryAddressError t := by
  obtain rfl | rfl := hc
  · obtain ⟨t, hfirst⟩ := exists_first_next hfault hphase
    rw [perform, hfirst]
    exact ⟨t, answer_next s t⟩
  · obtain ⟨t, hstep⟩ := exists_step_next hfault hphase
    rw [perform, hstep]
    exact ⟨t, answer_next s t⟩

/-- A RUN from Idle cannot be out of sequence: after each Ok turn the core is idle again. -/
theorem runLoop_of_idle {fuel : Nat} {s t : State} {r : Reply} (hfault : s.fault = none) (hphase : s.phase = .idle)
    (h : runLoop fuel s = .ended r t) : r = .ok ∨ r = .memoryAddressError := by
  by_cases hr : r = .ok
  · exact .inl hr
  · obtain hmem | ⟨-, hdone, -⟩ := runLoop_ended_not_ok hfault h hr
    · exact .inr hmem
    · rw [hphase] at hdone
      nomatch hdone

theorem exists_load_ended {image : Image} (m : Option Addr) (s : State) (hdistinct : Image.distinct image = true) :
    ∃ r t, load image m s = .ended r t ∧ t.fault = none := by
  rw [load, hdistinct, if_neg nofun]
  split
  · exact ⟨_, _, rfl, rfl⟩
  · exact ⟨_, _, rfl, rfl⟩

/-- Settles O35: the rows of the table, each by the case of FIRST, SECOND, STEP, RUN or LOAD it falls under. -/
theorem commandLegality : Obligations.CommandLegality := by
  refine fun s fuel => ⟨fun hfault hphase => ?_, fun hfault hphase => ?_, fun hfault hphase c => ?_,
    fun hfault hphase r t h => ?_, fun hfault c => ?_, ⟨_, rfl, rfl⟩, fun image m => exists_load_ended m s⟩
  · rw [perform, second_of_idle hfault hphase, answer]
  · have hstep := step_of_firstPhaseDone hfault hphase
    refine ⟨?_, ?_, fun hdone => ?_, fun hdone => ?_, commit s, ?_⟩
    · rw [perform, first_of_firstPhaseDone hfault hphase, answer]
    · rw [perform, hstep, answer]
    · rw [perform, run_of_notHalted fuel hfault, runLoop_of_done fuel hdone]
    · rw [perform, run_of_notHalted _ hfault]
      exact runLoop_of_step_not_ok fuel hdone nofun (by rw [hstep, answer])
    · rw [perform, second_of_firstPhaseDone hfault hphase]
      exact answer_next_of_none hfault
  · exact perform_of_idle fuel hfault hphase
  · rw [perform, run_of_notHalted fuel hfault] at h
    exact runLoop_of_idle hfault hphase h
  · obtain ⟨r, hr⟩ := Option.ne_none_iff_exists'.1 hfault
    exact perform_of_halted fuel hr

/-! ## How a RUN ends -/

theorem answer_ok {s t : State} {o : Host.Outcome State Fault Refusal} (h : answer s o = .ended .ok t) :
    o = .next t ∧ t.fault = none := by
  unfold answer at h
  split at h
  · split at h
    next hnone =>
      cases h
      exact ⟨rfl, hnone⟩
    next => nomatch h
  all_goals nomatch h

/-- An Ok turn is an Ok FIRST and its commit. -/
theorem OkTurn.commit {s t : State} (h : OkTurn s t) : t.fault = none ∧ ∃ u, FirstOk s u ∧ t = commit u := by
  obtain ⟨hstep, ht⟩ := answer_ok h.2
  exact ⟨ht, step_ok hstep ht⟩

/-- A core after Ok turns is idle between instructions, without a fault, and its limit is the one it started with. -/
structure Resting (limit : Option Addr) (s : State) : Prop where
  phase : s.phase = .idle
  ir : s.ir = none
  fault : s.fault = none
  maxPc : s.maxPc = limit

theorem OkTurn.resting {limit : Option Addr} {s t : State} (hs : Resting limit s) (h : OkTurn s t) : Resting limit t := by
  obtain ⟨ht, u, hok, rfl⟩ := h.commit
  exact ⟨rfl, rfl, ht, hok.maxPc.trans hs.maxPc⟩

/-- Settles O51: Ok turns leave the core resting, and a RUN that ended Ok ended because it was done. -/
theorem finalStateOfARun : Obligations.FinalStateOfARun := by
  intro fuel s t hphase hir h
  obtain ⟨hhalted, -⟩ | ⟨hfault, hloop⟩ := run_ended h
  · nomatch hhalted
  obtain ⟨u, hturns, ⟨-, rfl, hdone⟩ | ⟨hnot, -⟩⟩ := runLoop_ended hloop
  · obtain ⟨hphase', hir', hfault', hmaxPc⟩ : Resting s.maxPc t :=
      okTurns_keep (fun _ _ => OkTurn.resting) hturns ⟨hphase, hir, hfault, rfl⟩
    refine ⟨hphase', hir', hfault', hmaxPc, fun m hm => ?_⟩
    simpa [State.done_iff, hm] using hdone
  · exact absurd rfl hnot

theorem runLoop_more {fuel : Nat} (more : Nat) {s t : State} {r : Reply} (h : runLoop fuel s = .ended r t) :
    runLoop (fuel + more) s = .ended r t := by
  induction fuel generalizing s with
  | zero =>
    cases hdone : s.done with
    | true => rwa [runLoop_of_done _ hdone] at h ⊢
    | false =>
      rw [runLoop_zero hdone] at h
      nomatch h
  | succ fuel ih =>
    rw [Nat.add_right_comm]
    cases hdone : s.done with
    | true => rwa [runLoop_of_done _ hdone] at h ⊢
    | false =>
      obtain ⟨r', u, hturn⟩ := answer_of_runLoop_ended hdone h
      by_cases hr' : r' = .ok
      · rw [hr'] at hturn
        rw [runLoop_of_step_ok _ hdone hturn] at h ⊢
        exact ih h
      · rwa [runLoop_of_step_not_ok _ hdone hr' hturn] at h ⊢

/-- Settles O52: the turns a RUN made before it ended are made again. -/
theorem runEndsOneWay : Obligations.RunEndsOneWay := by
  intro fuel more s t r h
  rcases s.fault_cases with hfault | ⟨_, hfault⟩
  · rw [run_of_notHalted _ hfault] at h ⊢
    exact runLoop_more more h
  · rwa [run_of_halted _ hfault] at h ⊢

/-! ## Runs that do not end (R197) -/

/-- A RUN does not end where a condition that steps keep excludes faults and `done`. -/
theorem runsForever_of_kept {P : State → Prop} (hgoes : ∀ s, P s → s.fault = none ∧ s.done = false)
    (hkept : ∀ s, P s → ∃ t, step s = .next t ∧ P t) {s : State} (hs : P s) : RunsForever s := by
  intro fuel
  rw [run_of_notHalted fuel (hgoes s hs).1]
  induction fuel generalizing s with
  | zero => exact runLoop_zero (hgoes s hs).2
  | succ fuel ih =>
    obtain ⟨t, hstep, ht⟩ := hkept s hs
    have hturn : answer s (step s) = .ended .ok t := by rw [hstep, answer_next_of_none (hgoes t ht).1]
    rw [runLoop_of_step_ok fuel (hgoes s hs).2 hturn]
    exact ih ht

/-- The core is about to take a branch to itself, and is not done. -/
structure SelfBranching (s : State) : Prop where
  fetch : fetches s (.brz s.pc)
  acc : s.acc = 0
  done : s.done = false

theorem SelfBranching.step {s : State} (h : SelfBranching s) : ∃ t, step s = .next t ∧ SelfBranching t :=
  ⟨_, step_of_taken h.fetch (exec_brz_taken s.pc h.acc) rfl rfl, h.fetch, h.acc, h.done⟩

/-- Settles O53: the branch taken, the core is about to take it again. -/
theorem selfBranchRunsForever : Obligations.SelfBranchRunsForever := by
  intro s hfetch hacc hdone
  refine runsForever_of_kept (P := SelfBranching) (fun u hu => ?_) (fun _ => SelfBranching.step) ⟨hfetch, hacc, hdone⟩
  exact ⟨((fetches_iff _ _).1 hu.fetch).1, hu.done⟩

/-- The core of the full program: all 4096 cells, and a limit that no `pc` exceeds. -/
structure FullProgram (s : State) : Prop where
  memSize : s.memSize = 4096
  maxPc : s.maxPc = some 4095
  fault : s.fault = none
  phase : s.phase = .idle

theorem FullProgram.done {s : State} (h : FullProgram s) : s.done = false := by
  obtain ⟨-, hdone, -⟩ := doneComparesAndDoesNotGate
  exact hdone s h.maxPc

theorem FullProgram.step {s : State} (h : FullProgram s) : ∃ t, step s = .next t ∧ FullProgram t := by
  obtain ⟨t, hstep, hfault, hphase, -⟩ := noErrorWithFullMemory s h.memSize h.fault h.phase
  obtain ⟨u, hok, rfl⟩ := step_ok hstep hfault
  exact ⟨_, hstep, (congrArg Config.memSize hok.cfg).trans h.memSize, hok.maxPc.trans h.maxPc, hfault, hphase⟩

/-- Settles O54: no step can fail, and `pc` stays within the limit. -/
theorem fullProgramRunsForever : Obligations.FullProgramRunsForever := by
  intro s hsize hmax hfault hphase
  exact runsForever_of_kept (P := FullProgram) (fun _ h => ⟨h.fault, h.done⟩) (fun _ => FullProgram.step)
    ⟨hsize, hmax, hfault, hphase⟩

end Sys2Proof.Machine
end

section
/-! SUPPORT and PROOFS. Words as text and as numbers: the opcode map, the debug listing (spec/20_memory.md R45) and the ALU's results
read as two's complement (spec/43_alu_memory.md section 1). -/

namespace Sys2Proof.Machine

open Sys2Proof.Laws

/-! ## Opcodes (R53) -/

theorem le_seven_eq_not_topBit (op : Opcode) : decide (op.toNat ≤ 7) = !op.getLsbD 3 := by
  decide +revert

/-- Settles O4: the table written out, its inverse on each kind, and the address-kinds as the opcodes up to 7. -/
theorem opcodeMapFollowsListOrder : Obligations.OpcodeMapFollowsListOrder :=
  ⟨by decide, kindOfOpcode_opcode, fun op => (isAddressKind_kindOfOpcode op).trans (le_seven_eq_not_topBit op)⟩

/-- Settles O8: each word is decoded by computing. -/
theorem wordsOfTheTableDecode : Obligations.WordsOfTheTableDecode := by
  unfold Obligations.WordsOfTheTableDecode
  decide

theorem opcode_kindOfOpcode_eq (op : Opcode) : (kindOfOpcode op).opcode = if op.toNat < 12 then op else 12#4 := by
  split
  next hlt => exact opcode_kindOfOpcode (Nat.le_of_lt hlt)
  next hge =>
    rw [kindOfOpcode_of_ge (Nat.not_lt.1 hge)]
    rfl

/-- Settles O6: from opcode 8 on the decoded address is 0, so the kind alone tells instructions apart. -/
theorem lowBitsOfFormatNAreIgnored : Obligations.LowBitsOfFormatNAreIgnored := by
  intro op low other hop
  have haddr (a : Addr) : (decode (op ++ a)).address = 0 := by rw [address_decode_append, if_neg (by omega)]
  refine ⟨(eq_iff_kind_address _ _).2 ⟨?_, ?_⟩, haddr low, ?_⟩
  · rw [kind_decode_append, kind_decode_append]
  · rw [haddr, haddr]
  · rw [encode_decode_append, if_neg (by omega), opcode_kindOfOpcode_eq]
    rfl

/-! ## Two's complement -/

/-- Settles O28: negation is the complement plus one, and each operation commutes with the signed reading. -/
theorem signedReadingWrapsAlike : Obligations.SignedReadingWrapsAlike := by
  refine fun a b => ⟨BitVec.toInt_add a b, BitVec.toInt_sub, ?_⟩
  have hneg : alu .inc (alu .not a b) b = -a := (BitVec.neg_eq_not_add a).symm
  rw [hneg, BitVec.toInt_neg]

/-! ## The debug listing (R45) -/

theorem decimalValue_hexDigit {n : Nat} (h : n < 10) : decimalValue (hexDigit (BitVec.ofNat 4 n)) = some n := by
  decide +revert

theorem hexDigit_ne_zero {n : Nat} (h : n < 10) : n ≠ 0 → hexDigit (BitVec.ofNat 4 n) ≠ '0' := by
  decide +revert

/-- Reading the digits put before `tail` is reading `tail` on from their number. -/
theorem numberFrom_decimalOnto {fuel n : Nat} (tail : Text) (h : n < 10 ^ fuel) :
    numberFrom 10 decimalValue 0 (decimalOnto fuel n tail) = numberFrom 10 decimalValue n tail := by
  induction fuel generalizing n tail with
  | zero =>
    obtain rfl : n = 0 := by omega
    rfl
  | succ fuel ih =>
    rw [decimalOnto]
    split
    next hlt => simp only [numberFrom, decimalValue_hexDigit hlt, Nat.zero_mul, Nat.zero_add]
    next =>
      have hdigit : n % 10 < 10 := Nat.mod_lt n (by decide)
      rw [ih _ (by omega)]
      simp only [numberFrom, decimalValue_hexDigit hdigit, Nat.div_add_mod']

/-- The first of the digits put before `tail` is not `0`, unless the number is. -/
theorem head?_decimalOnto {fuel n : Nat} (tail : Text) (h : n < 10 ^ fuel) (hn : n ≠ 0) :
    ∃ d rest, decimalOnto fuel n tail = d :: rest ∧ d ≠ '0' := by
  induction fuel generalizing n tail with
  | zero => omega
  | succ fuel ih =>
    rw [decimalOnto]
    split
    next hlt => exact ⟨_, _, rfl, hexDigit_ne_zero hlt hn⟩
    next => exact ih _ (by omega) (by omega)

theorem decimal_zero : decimal 0 = ['0'] := by
  decide

/-- A number below 100000 is read back from its digits, which begin with `0` for 0 only. -/
theorem decimal_spec {n : Nat} (h : n < 100000) :
    parseNumber 10 decimalValue (decimal n) = some n ∧ (n ≠ 0 → (decimal n).head? ≠ some '0') := by
  rcases eq_or_ne n 0 with rfl | hn
  · rw [decimal_zero]
    exact ⟨by decide, fun hne => absurd rfl hne⟩
  · have hread : numberFrom 10 decimalValue 0 (decimal n) = some n := numberFrom_decimalOnto [] h
    obtain ⟨d, rest, hdigits, hd⟩ : ∃ d rest, decimal n = d :: rest ∧ d ≠ '0' := head?_decimalOnto [] h hn
    rw [hdigits] at hread ⊢
    exact ⟨hread, fun _ => by simpa using hd⟩

theorem debugRow_unsigned (v : Word) : (debugRow v).unsigned = decimal v.toNat := rfl

theorem debugRow_signed_of_nonneg {v : Word} (h : 0 ≤ v.toInt) : (debugRow v).signed = decimal v.toNat := by
  have hv : v.toNat < 32768 := by
    rw [BitVec.toInt_eq_toNat_cond] at h
    omega
  exact if_pos hv

theorem debugRow_signed_of_neg {v : Word} (h : v.toInt < 0) : (debugRow v).signed = '-' :: decimal v.toInt.natAbs := by
  obtain ⟨hv, habs⟩ : ¬ v.toNat < 32768 ∧ v.toInt.natAbs = 65536 - v.toNat := by
    have hlt := v.isLt
    rw [BitVec.toInt_eq_toNat_cond] at h ⊢
    omega
  rw [habs]
  exact if_neg hv

theorem natAbs_toInt_le (v : Word) : v.toInt.natAbs ≤ 32768 := by
  have hlow := BitVec.le_toInt v
  have hhigh := BitVec.toInt_lt (x := v)
  omega

/-- Settles O16: the columns of a row, the decimal ones by reading their digits back. -/
theorem debugRowSpellsTheCell : Obligations.DebugRowSpellsTheCell := by
  refine ⟨fun v => ⟨rfl, ?_⟩, decimal_zero, fun v => ⟨rfl, rfl, rfl⟩, fun v => ⟨fun hneg => ?_, fun hnonneg => ?_⟩,
    by decide, by decide⟩
  · rw [debugRow_unsigned]
    obtain ⟨hread, hhead⟩ := decimal_spec (Nat.lt_trans v.isLt (by decide))
    exact ⟨hread, fun hv => hhead (BitVec.toNat_ne.1 hv)⟩
  · obtain ⟨hread, hhead⟩ := decimal_spec (Nat.lt_of_le_of_lt (natAbs_toInt_le v) (by decide))
    exact ⟨_, debugRow_signed_of_neg hneg, hhead (by omega), hread⟩
  · rw [debugRow_signed_of_nonneg hnonneg, debugRow_unsigned]

end Sys2Proof.Machine
end

section
/-! SUPPORT and PROOFS. The assembler's answers (spec/30_encoding.md section 5): which text fails at which line, and that what
assembles is loaded whole. -/

namespace Sys2Proof.Machine

open Sys2Proof.Statement

/-! ## The first line that matches no form (R72) -/

/-- The line at position `j`, counted from 0, is the first that matches no form, and its text is `raw`. -/
def FirstBad (ls : List Text) (j : Nat) (raw : Text) : Prop :=
  ls[j]? = some raw ∧ parseLine raw = none ∧ ∀ i l, i < j → ls[i]? = some l → parseLine l ≠ none

theorem firstBad_zero {x raw : Text} {rest : List Text} :
    FirstBad (x :: rest) 0 raw ↔ x = raw ∧ parseLine raw = none := by
  simp [FirstBad]

theorem firstBad_succ {x raw : Text} {rest : List Text} {j : Nat} :
    FirstBad (x :: rest) (j + 1) raw ↔ parseLine x ≠ none ∧ FirstBad rest j raw := by
  refine ⟨fun ⟨hget, hnone, hbefore⟩ => ⟨hbefore 0 x (Nat.succ_pos j) rfl, hget, hnone, fun i l hi hl => ?_⟩,
    fun ⟨hx, hget, hnone, hbefore⟩ => ⟨hget, hnone, fun i l hi hl => ?_⟩⟩
  · exact hbefore (i + 1) l (Nat.succ_lt_succ hi) hl
  · cases i with
    | zero =>
      cases hl
      exact hx
    | succ i => exact hbefore i l (Nat.lt_of_succ_lt_succ hi) hl

theorem parseLines_of_bad {n : Nat} {raw : Text} {rest : List Text} (h : parseLine raw = none) :
    parseLines n (raw :: rest) = .error (.syntaxError n raw) := by
  simp only [parseLines, h]

theorem parseLines_error_of_good {n : Nat} {raw : Text} {rest : List Text} {e : AsmError} (h : parseLine raw ≠ none) :
    parseLines n (raw :: rest) = .error e ↔ parseLines (n + 1) rest = .error e := by
  obtain ⟨l, hl⟩ := Option.ne_none_iff_exists'.1 h
  cases hrest : parseLines (n + 1) rest <;> simp [parseLines, hl, hrest]

/-- Reading lines fails exactly at the first bad one, its number counted on from `n`. -/
theorem parseLines_error_iff {n : Nat} {ls : List Text} {e : AsmError} :
    parseLines n ls = .error e ↔ ∃ j raw, FirstBad ls j raw ∧ e = .syntaxError (n + j) raw := by
  induction ls generalizing n with
  | nil => simp [parseLines, FirstBad]
  | cons x rest ih =>
    by_cases hx : parseLine x = none
    · rw [parseLines_of_bad hx]
      constructor
      · rintro ⟨⟩
        exact ⟨0, x, firstBad_zero.2 ⟨rfl, hx⟩, rfl⟩
      · rintro ⟨_ | j, raw, hbad, rfl⟩
        · rw [(firstBad_zero.1 hbad).1, Nat.add_zero]
        · exact absurd hx (firstBad_succ.1 hbad).1
    · rw [parseLines_error_of_good hx, ih]
      constructor
      · rintro ⟨j, raw, hbad, rfl⟩
        exact ⟨j + 1, raw, firstBad_succ.2 ⟨hx, hbad⟩, by rw [Nat.add_right_comm, Nat.add_assoc]⟩
      · rintro ⟨_ | j, raw, hbad, rfl⟩
        · obtain ⟨rfl, hnone⟩ := firstBad_zero.1 hbad
          exact absurd hnone hx
        · exact ⟨j, raw, (firstBad_succ.1 hbad).2, by rw [Nat.add_right_comm, Nat.add_assoc]⟩

theorem operandValue_error {env : List (Text × Nat)} {o : Option Operand} {e : AsmError}
    (h : operandValue env o = .error e) : ∃ name, e = .undefinedName name := by
  unfold operandValue at h
  split at h
  · nomatch h
  · nomatch h
  · split at h <;> cases h
    exact ⟨_, rfl⟩

/-- The one thing that keeps lines that were read from giving writes is a name without a binding. -/
theorem emit_error {env : List (Text × Nat)} {here : Nat} {ls : List Line} {e : AsmError}
    (h : emit env here ls = .error e) : ∃ name, e = .undefinedName name := by
  induction ls generalizing here with
  | nil => nomatch h
  | cons l rest ih =>
    cases l with
    | blank | constant _ _ | label _ => exact ih h
    | data a v =>
      rw [emit] at h
      split at h <;> cases h
      next hrest => exact ih hrest
    | instruction k o =>
      rw [emit] at h
      split at h <;> cases h
      next hvalue => exact operandValue_error hvalue
      next hrest => exact ih hrest

theorem assembleLines_ne_syntaxError {ls : List Line} {n : Nat} {raw : Text} :
    assembleLines ls ≠ .error (.syntaxError n raw) := by
  unfold assembleLines
  split
  · nofun
  · split
    next hemit =>
      rintro ⟨⟩
      obtain ⟨_, hname⟩ := emit_error hemit
      nomatch hname
    next => split <;> nofun

theorem assemble_of_parseLines_error {text : Text} {e : AsmError} (h : parseLines 1 (splitLines text) = .error e) :
    assemble text = .error e := by
  rw [assemble, h]

/-- Lines that were all read fail for their names or their cells only. -/
theorem assemble_syntaxError_iff {text : Text} {n : Nat} {raw : Text} :
    assemble text = .error (.syntaxError n raw) ↔ parseLines 1 (splitLines text) = .error (.syntaxError n raw) := by
  cases hlines : parseLines 1 (splitLines text) with
  | error e => rw [assemble_of_parseLines_error hlines, Except.error.injEq, Except.error.injEq]
  | ok ls =>
    rw [assemble_of_parseLines hlines]
    exact ⟨fun h => absurd h assembleLines_ne_syntaxError, nofun⟩

/-- Settles O56: such an error comes from the reading of the lines alone, which fails at the first bad one. -/
theorem syntaxErrorNamesTheFirstBadLine : Obligations.SyntaxErrorNamesTheFirstBadLine := by
  intro text n raw
  rw [assemble_syntaxError_iff, parseLines_error_iff]
  constructor
  · rintro ⟨j, _, hbad, ⟨⟩⟩
    rw [Nat.add_sub_cancel_left]
    exact ⟨Nat.le_add_right 1 j, hbad⟩
  · rintro ⟨hn, hbad⟩
    exact ⟨n - 1, raw, hbad, by rw [Nat.add_sub_cancel' hn]⟩

/-! ## Loading what was assembled (R191) -/

theorem exists_lines_of_assemble_ok {text : Text} {p : Assembled} (h : assemble text = .ok p) :
    ∃ ls, parseLines 1 (splitLines text) = .ok ls ∧ assembleLines ls = .ok p := by
  cases hlines : parseLines 1 (splitLines text) with
  | error e =>
    rw [assemble_of_parseLines_error hlines] at h
    nomatch h
  | ok ls => exact ⟨ls, rfl, assemble_of_parseLines hlines ▸ h⟩

/-- The assembled `max_pc` is the address of a write, the last instruction's. -/
theorem exists_write_at_maxPc {text : Text} {p : Assembled} {k : Nat} (h : assemble text = .ok p) (hk : p.maxPc = some k) :
    ∃ w ∈ p.image, w.address = k := by
  obtain ⟨ls, hlines, -⟩ := exists_lines_of_assemble_ok h
  obtain ⟨hmaxPc, hplaced⟩ := instructionLinesArePlacedInOrder text ls p hlines h
  rw [hmaxPc] at hk
  split at hk
  · nomatch hk
  next hne =>
    cases hk
    have hlast : (instructionsOf ls).length - 1 < (instructionsOf ls).length :=
      Nat.sub_one_lt (mt List.length_eq_zero_iff.1 hne)
    obtain ⟨_, -, hmem⟩ := hplaced _ _ _ (List.getElem?_eq_getElem hlast)
    exact ⟨_, hmem, rfl⟩

/-- Settles O57: the image names no cell twice, so LOAD places it, and `max_pc` is the address of one of its writes. -/
theorem assembledTextIsLoadedWhole : Obligations.AssembledTextIsLoadedWhole := by
  intro text p s h hrange
  obtain ⟨ls, -, hassembled⟩ := exists_lines_of_assemble_ok h
  obtain ⟨-, -, hdistinct, -⟩ := assembleLines_ok hassembled
  have himage : Image.wellFormed s.memSize p.image = true := by rw [Image.wellFormed, hrange, hdistinct]; rfl
  obtain ⟨hload, hreads⟩ := load_places (p.maxPc.map (BitVec.ofNat 12)) himage
  refine ⟨_, by simp only [loadProgram, h, hload], ?_, hreads⟩
  rw [loadedState_maxPc]
  cases hk : p.maxPc with
  | none => rfl
  | some k =>
    obtain ⟨w, hw, haddr⟩ := exists_write_at_maxPc h hk
    have hwrange := inRange_iff.1 hrange w hw
    have hsize := s.memSize_le
    have hfits : (BitVec.ofNat 12 k).toNat = k := by
      rw [BitVec.toNat_ofNat]
      omega
    rw [Option.map_some, Option.map_some, hfits]

/-- Settles O58: each text is assembled by computing. -/
theorem workedTextsAssemble : Obligations.WorkedTextsAssemble :=
  ⟨by decide, by decide, by decide, by decide, by decide, by decide, by decide, by decide⟩

end Sys2Proof.Machine
end
